-- ==== Sys2Proof/Word.lean ====
section
/-! DEFINITION. The word, byte and address types of the rufus Machine (00_scope.md R6, R7, R8). -/

namespace Sys2Proof

/-- One memory cell and every datum: `WORD_BITS` = 32 (R6). A pattern with no inherent sign (R8). -/
abbrev Word := BitVec 32

/-- An 8-bit field: a zero-page index, an opcode byte or an output byte (R7). -/
abbrev Byte := BitVec 8

/-- A word address: `ADDR_BITS` = 16 (R6). -/
abbrev Addr := BitVec 16

end Sys2Proof
end

