-- ==== Sys2Proof/Syntax.lean ====
section
/-! DEFINITION. The instruction record and the nine instruction kinds (30_encoding.md R90). -/

namespace Sys2Proof

/-- The nine kinds of instruction, one per row of the opcode table (R85). -/
inductive Kind where
  | add | neg | and | or | xor | l | s | li | lp
deriving DecidableEq, Repr

/-- The nine kinds, in the order of the opcode table (R85). -/
def Kind.all : List Kind := [.add, .neg, .and, .or, .xor, .l, .s, .li, .lp]

/-- The instruction record: "a tagged variant over nine forms" (R90), its fields in the order of
R90. `Byte` fields are zero-page indices, `Addr` fields of L and S are full addresses; NEG carries
`pad` (R89). `src` and `dst` are the spec's `from` and `to`. -/
inductive Instr where
  | add (lhs rhs out : Byte)
  | neg (input out pad : Byte)
  | and (lhs rhs out : Byte)
  | or (lhs rhs out : Byte)
  | xor (lhs rhs out : Byte)
  | l (src : Addr) (dst : Byte)
  | s (src : Byte) (dst : Addr)
  | li (addr : Byte) (imm : BitVec 16)
  | lp (cond src dst : Byte)
deriving DecidableEq, Repr

/-- The kind of an instruction record. -/
def Instr.kind : Instr → Kind
  | .add _ _ _ => .add
  | .neg _ _ _ => .neg
  | .and _ _ _ => .and
  | .or _ _ _ => .or
  | .xor _ _ _ => .xor
  | .l _ _ => .l
  | .s _ _ => .s
  | .li _ _ => .li
  | .lp _ _ _ => .lp

end Sys2Proof
end

