-- ==== Sys2Proof/Decode.lean ====
section
/-! DEFINITION. The instruction codec of 30_encoding.md: the kind-specific decoders (R92), the
dispatching decoder (R93), the encoder (R91), and the host's `decodeTableWord`. -/

namespace Sys2Proof

/-- Byte 0 of a word, `w[31:24]` (00_scope.md R7): the opcode (R80). -/
def byte0 (w : Word) : Byte := w.extractLsb' 24 8

/-- Byte 1 of a word, `w[23:16]` (R7). -/
def byte1 (w : Word) : Byte := w.extractLsb' 16 8

/-- Byte 2 of a word, `w[15:8]` (R7). -/
def byte2 (w : Word) : Byte := w.extractLsb' 8 8

/-- Byte 3 of a word, `w[7:0]` (R7). -/
def byte3 (w : Word) : Byte := w.extractLsb' 0 8

/-- The low-order byte `v[7:0]` of a 16-bit field. -/
def loByte (v : BitVec 16) : Byte := v.extractLsb' 0 8

/-- The high-order byte `v[15:8]` of a 16-bit field. -/
def hiByte (v : BitVec 16) : Byte := v.extractLsb' 8 8

/-- A 16-bit little-endian field from its two bytes, `first` in the lower-numbered byte of the word
(20_memory.md R52, 30_encoding.md R82, R83). UNVERIFIED (log 18): what little-endian means. -/
def leField (first second : Byte) : BitVec 16 := second ++ first

/-- Four bytes as one word, byte 0 the most significant (R7, R52). UNVERIFIED (log 18). -/
def packBytes (b0 b1 b2 b3 : Byte) : Word := b0 ++ b1 ++ b2 ++ b3

/-- The opcode of a kind (R85). -/
def Kind.opcode : Kind → Byte
  | .add => 0x00#8
  | .neg => 0x01#8
  | .and => 0x02#8
  | .or => 0x04#8
  | .xor => 0x05#8
  | .l => 0x06#8
  | .s => 0x09#8
  | .li => 0x0A#8
  | .lp => 0x0C#8

/-- The decoder an opcode byte selects, if it is one of the nine (R85, R93). -/
def kindOfOpcode (op : Byte) : Option Kind :=
  Kind.all.find? (fun k => k.opcode == op)

/-- The record whose fields are the slices of formats B3, WB and BW (R81, R82, R83). -/
def Kind.fields (k : Kind) (w : Word) : Instr :=
  match k with
  | .add => .add (byte1 w) (byte2 w) (byte3 w)
  | .neg => .neg (byte1 w) (byte2 w) (byte3 w)
  | .and => .and (byte1 w) (byte2 w) (byte3 w)
  | .or => .or (byte1 w) (byte2 w) (byte3 w)
  | .xor => .xor (byte1 w) (byte2 w) (byte3 w)
  | .l => .l (leField (byte1 w) (byte2 w)) (byte3 w)
  | .s => .s (byte1 w) (leField (byte2 w) (byte3 w))
  | .li => .li (byte1 w) (leField (byte2 w) (byte3 w))
  | .lp => .lp (byte1 w) (byte2 w) (byte3 w)

/-- Fault code (a), raised by a kind-specific decoder only (60_exceptions.md R220, R221): the word
and the kind requested. No step of the Machine raises it (R93). -/
structure FormatViolation where
  word : Word
  kind : Kind
deriving DecidableEq, Repr

/-- `decode_K` (R92): checks the leading byte, then reads the fields of `K`'s format. -/
def decodeAs (k : Kind) (w : Word) : Except FormatViolation Instr :=
  if byte0 w = k.opcode then .ok (k.fields w) else .error ⟨w, k⟩

/-- What the Machine's decoder answers (R93). -/
inductive Decoded where
  | instr (i : Instr)
  | unsupported (op : Byte)
  | illegal (op : Byte)
deriving DecidableEq, Repr

/-- The length class of an opcode is the reserved multi-word one: `op[1:0] = 0b11` (R80, R86). -/
def isVle (op : Byte) : Bool := op.extractLsb' 0 2 == 0b11#2

/-- The Machine's decoder (R93): the length test comes first (R183), then the opcode byte selects
the decoder; an unassigned one-word opcode is illegal (R87). -/
def decode (w : Word) : Decoded :=
  if isVle (byte0 w) then .unsupported (byte0 w)
  else
    match kindOfOpcode (byte0 w) with
    | some k => .instr (k.fields w)
    | none => .illegal (byte0 w)

/-- `encode : Instr -> word` (R91). -/
def encode : Instr → Word
  | .add lhs rhs out => packBytes 0x00#8 lhs rhs out
  | .neg input out pad => packBytes 0x01#8 input out pad
  | .and lhs rhs out => packBytes 0x02#8 lhs rhs out
  | .or lhs rhs out => packBytes 0x04#8 lhs rhs out
  | .xor lhs rhs out => packBytes 0x05#8 lhs rhs out
  | .l src dst => packBytes 0x06#8 (loByte src) (hiByte src) dst
  | .s src dst => packBytes 0x09#8 src (loByte dst) (hiByte dst)
  | .li addr imm => packBytes 0x0A#8 addr (loByte imm) (hiByte imm)
  | .lp cond src dst => packBytes 0x0C#8 cond src dst

/-- The 32-bit word of the opcode table's numbering: an instruction is one cell, so bit `k` of the
table is bit `k` of the cell, and the bits above `nbits` are 0. -/
def tableWord (nbits w : Nat) : Word := BitVec.ofNat 32 (w % 2 ^ nbits)

/-- The instruction the decoder reads from a word numbered as spec/opcode_table.json numbers it. -/
def decodeTableWord (nbits w : Nat) : Option Instr :=
  match decode (tableWord nbits w) with
  | .instr i => some i
  | .unsupported _ => none
  | .illegal _ => none

end Sys2Proof
end

