-- ==== Sys2Proof/Config.lean ====
section
/-! DEFINITION. The fixed parameters of 00_scope.md R6 and the one named parameter the spec lets a
model take, `ADD_OVERFLOW` (92_eei_decisions.md D1). The spec leaves no value free, so nothing here
is opaque. -/

namespace Sys2Proof.Config

/-- `PC_ADDR`: the program-counter cell (R6, R26). -/
def pcAddr : Addr := 0x0000#16

/-- `WRITING_ADDR`: the output-strobe cell (R6, R26). -/
def writingAddr : Addr := 0xFFFE#16

/-- `DATA_ADDR`: the output-data cell (R6, R26). -/
def dataAddr : Addr := 0xFFFF#16

/-- `LOAD_BASE`: where the image starts, the reset value of PC, the implicit breakpoint (R6, R263). -/
def loadBase : Addr := 0x8000#16

/-- `MEM_WORDS`: the number of cells (R6). -/
def memWords : Nat := 65536

/-- The most words an image can have without passing 0xFFFF (70_reset_and_hazards.md R262). -/
def maxImage : Nat := 32768

/-- The launch premise on an image: it reaches neither I/O cell (R262, D11). -/
def launchImage : Nat := 32766

/-- The values of the parameter `ADD_OVERFLOW` (D1, U1): the sum wraps, or it is a fatal fault. -/
inductive AddOverflow where
  | wrap
  | fault
deriving DecidableEq, Repr

/-- `ADD_OVERFLOW`, default `wrap`: the value rules R130, R131 and R136 state.
UNVERIFIED (log 5): the spec decides `wrap` where its source leaves the point open. Unsafe. -/
def addOverflow : AddOverflow := .wrap

end Sys2Proof.Config
end

