-- ==== Sys2Proof/Machine/Flags.lean ====
section
/-! DEFINITION. There are no flags (10_state.md R25). What takes their place: the one condition, the
signed test of LP (42_conditional_move.md R170), and the arithmetic whose overflow the parameter
`ADD_OVERFLOW` settles (40_alu.md R136, D1, D2). -/

namespace Sys2Proof.Machine

/-- `signed(c) > 0`: the top bit is 0 and the word is not 0 (R8, R170). -/
def isPositive (c : Word) : Bool := decide (0 < c.toInt)

/-- The result of ADD, or none where the parameter makes it a fatal `ArithmeticOverflow`: an
unsigned sum above 0xFFFFFFFF (R136, D1). -/
def addResult (p : Config.AddOverflow) (a b : Word) : Option Word :=
  match p with
  | .wrap => some (a + b)
  | .fault => if a.toNat + b.toNat < 2 ^ 32 then some (a + b) else none

/-- The result of NEG, `(~a + 1) mod 2^32`, or none where the parameter makes it a fatal
`ArithmeticOverflow`: 0x80000000 only (R131, R136, D2). -/
def negResult (p : Config.AddOverflow) (a : Word) : Option Word :=
  match p with
  | .wrap => some (~~~a + 0x00000001#32)
  | .fault => if a = 0x80000000#32 then none else some (~~~a + 0x00000001#32)

end Sys2Proof.Machine
end

