-- ==== Sys2Proof/Machine/State.lean ====
section
/-! DEFINITION. The whole state the spec gives the Machine (10_state.md), as plain data, the reasons
a run ends (60_exceptions.md R220), and the machine right after reset (R36). -/

namespace Sys2Proof.Machine

/-- Why a run has ended: the cause of mode Halted (10_state.md R30, D15). Each carries the `info` of
R220. A step of a Machine that is already Halted answers the cause as its fault (R232: Halted is "a
fault outcome that is never a successful final state"). -/
inductive Fault where
  /-- Code (e), raised by step 3 when the PC cell is above 0xFFFF, and by the loader for an image
  that does not fit (R182, R223, R262). Safe: the model stops where a truncating machine goes on. -/
  | outOfBounds (addr : Word)
  /-- Code (b), raised by step 4 when the opcode's two low bits are 0b11 (R183, R222). Safe: the
  spec's own fatal fault. -/
  | unsupportedVLE (op : Byte)
  /-- The spec's own fault, raised by step 5 for the 183 unassigned opcodes (R184, R224, D3). Safe. -/
  | illegalOpcode (op : Byte)
  /-- Raised by ADD and NEG only when `ADD_OVERFLOW` is `fault`, which is not the default (D1, D2).
  Safe. -/
  | arithmeticOverflow
  /-- Not a fault of the program: the host's `exit` in mode Debugging (R244). Safe. -/
  | debuggerExit
deriving DecidableEq, Repr

/-- Why an instruction has no meaning here. -/
inductive Refusal where
  /-- Raised only by an arm of `exec` for an instruction that has no meaning yet; no arm is one now.
  Safe. -/
  | notModelled (mnemonic : String)
deriving DecidableEq, Repr

/-- The state of the run loop (R30, R240). -/
inductive Mode where
  | running
  | debugging
  | halted (cause : Fault)
deriving DecidableEq, Repr

/-- The host's debugger commands (R35, R240 to R245). `cont` is the spec's Continue. -/
inductive DbgCmd where
  | cont
  | read (addr : Addr)
  | exit
  | invalid
deriving DecidableEq, Repr

/-- What crosses the boundary of the block toward the host, `char_out` apart (R35). -/
inductive Event where
  /-- `break(a)` (R241). -/
  | brk (addr : Addr)
  /-- `dbg_data(v)` (R243). -/
  | dbgData (value : Word)
  /-- `abort(cause)` (R231, R244). -/
  | abort (cause : Fault)
deriving DecidableEq, Repr

/-- Memory: pairs of an address and the 32-bit cell at it. In canonical form (`Memory.wf`) the
addresses strictly rise, lie below 65,536, and no listed cell holds what an unlisted one reads as.
DESIGN CHOICE (log 1): the unit is the 32-bit cell, the smallest thing an address names (R20). Safe. -/
abbrev Memory := List (Nat × Word)

/-- What an unlisted address reads as: memory is "zero-initialized" (R20, R260). -/
def Memory.unlisted : Word := 0x00000000#32

/-- Everything the spec gives the Machine. The PC, WRITING, DATA and the 256 zero-page registers are
cells of `mem` (R22, R24, R26). `cmds` and `events` are the model's own: the host's pending commands
and the record of what crossed the boundary (log 11, log 12). -/
structure State where
  /-- `M`, the memory array (R20). -/
  mem : Memory
  /-- `mode` (R30). -/
  mode : Mode
  /-- `BP`, the breakpoint set (R31), as a strictly rising list. -/
  bp : List Addr
  /-- `out`, the output stream, oldest byte first (R32). -/
  out : List Byte
  /-- Debugger commands the host has issued and the Machine has not yet taken, oldest first. -/
  cmds : List DbgCmd
  /-- Events of R35 other than `char_out`, oldest first. -/
  events : List Event
deriving DecidableEq, Repr

/-- The Machine after reset and the load of an empty image with no breakpoint of the host's (R36,
R261, R262: "An empty image is allowed: all of memory is zero except the PC"). -/
def State.reset : State where
  mem := [(0x0000, 0x00008000#32)]
  mode := .running
  bp := [0x8000#16]
  out := []
  cmds := []
  events := []

end Sys2Proof.Machine
end

