-- ==== Sys2Proof/WellFormed.lean ====
section
/-! DEFINITION. What is well formed: every instruction record (30_encoding.md R90), and the images
the loader takes (70_reset_and_hazards.md R262). -/

namespace Sys2Proof

/-- "Every value of every field is legal, so every element of `Instr` is a valid instruction" (R90).
The field types already hold exactly the legal values, so no instruction is refused. -/
def Instr.wellFormed : Instr → Bool
  | .add _ _ _ => true
  | .neg _ _ _ => true
  | .and _ _ _ => true
  | .or _ _ _ => true
  | .xor _ _ _ => true
  | .l _ _ => true
  | .s _ _ => true
  | .li _ _ => true
  | .lp _ _ _ => true

/-- The image fits between 0x8000 and 0xFFFF, so a Machine results from loading it (R262). -/
def imageFits (image : List Word) : Bool := decide (image.length ≤ Config.maxImage)

/-- The launch premise of R262 and D11: the image covers neither WRITING nor DATA. -/
def imageLaunchable (image : List Word) : Bool := decide (image.length ≤ Config.launchImage)

end Sys2Proof
end

