-- ==== Sys2Proof/Machine/Ops.lean ====
section
/-! DEFINITION. The named operations over memory and the Machine's state: one cell read and written
(20_memory.md), the output strobe and the PC advance (43_execution_cycle.md R195, R190), raising a
fault (R185, R231), the breakpoint halt and the debugger's effects (60_exceptions.md R240 to R246),
and the loader (70_reset_and_hazards.md R260 to R263). There is no return from an exception to
model: R232 says there is none. -/

namespace Sys2Proof.Machine

/-! ### The memory array -/

/-- The cell at an address, which is the first entry listed for it, or what an unlisted one reads as. -/
def Memory.readAt : Memory → Nat → Word
  | [], _ => Memory.unlisted
  | (k, v) :: rest, n => if k = n then v else Memory.readAt rest n

/-- `MemRead(addr, 1)` (00_scope.md R9): one whole cell, no side effect (R58). -/
def Memory.read (m : Memory) (a : Addr) : Word := Memory.readAt m a.toNat

/-- Puts an entry before the first one with a greater address. -/
def Memory.insert (n : Nat) (v : Word) : Memory → Memory
  | [] => [(n, v)]
  | (k, u) :: rest => if n < k then (n, v) :: (k, u) :: rest else (k, u) :: Memory.insert n v rest

/-- Removes every entry listed for an address. -/
def Memory.erase (n : Nat) : Memory → Memory
  | [] => []
  | (k, u) :: rest => if k = n then Memory.erase n rest else (k, u) :: Memory.erase n rest

/-- `MemWrite(addr, 1, v)` (R9): one whole cell. A cell that gets what an unlisted one reads as is
no longer listed, so equal memories stay equal lists. -/
def Memory.write (m : Memory) (a : Addr) (v : Word) : Memory :=
  if v = Memory.unlisted then Memory.erase a.toNat m
  else Memory.insert a.toNat v (Memory.erase a.toNat m)

/-- The canonical form from a lower bound on: addresses strictly rise from `lo`, stay below 65,536
(R20), and no entry is what an unlisted address reads as. -/
def Memory.wfFrom : Nat → Memory → Bool
  | _, [] => true
  | lo, (k, v) :: rest =>
    decide (lo ≤ k) && decide (k < Config.memWords) && decide (v ≠ Memory.unlisted)
      && Memory.wfFrom (k + 1) rest

/-- The canonical form of memory. -/
def Memory.wf (m : Memory) : Bool := Memory.wfFrom 0 m

/-! ### Cells of the state -/

/-- `M[a]` on the right of an assignment (R9). -/
def State.read (s : State) (a : Addr) : Word := s.mem.read a

/-- `M[a] <- v` (R9). Nothing else happens at the moment of the write (R57). -/
def State.write (s : State) (a : Addr) (v : Word) : State := { s with mem := s.mem.write a v }

/-- `pc`: all 32 bits of cell 0x0000 (R9, R24). -/
def State.pc (s : State) : Word := s.read Config.pcAddr

/-- `pc <- t` (R9). -/
def State.setPc (s : State) (t : Word) : State := s.write Config.pcAddr t

/-- The WRITING cell (R26). -/
def State.writing (s : State) : Word := s.read Config.writingAddr

/-- The DATA cell (R26). -/
def State.data (s : State) : Word := s.read Config.dataAddr

/-! ### Fetch addresses and the breakpoint set -/

/-- A 32-bit fetch address lies in the 65,536-cell space (R182). -/
def inRange (a : Word) : Bool := decide (a.toNat < Config.memWords)

/-- `a[15:0]`, the cell a fetch address in range names (R180). -/
def cellOf (a : Word) : Addr := a.extractLsb' 0 16

/-- Step 2's test: the fetch address is in range and in `BP` (R181). A PC above 0xFFFF matches no
breakpoint (D4). -/
def State.atBreakpoint (s : State) : Bool := inRange s.pc && s.bp.contains (cellOf s.pc)

/-- A breakpoint set from a lower bound on: strictly rising, so that each set is one list. -/
def bpWfFrom : Nat → List Addr → Bool
  | _, [] => true
  | lo, a :: rest => decide (lo ≤ a.toNat) && bpWfFrom (a.toNat + 1) rest

/-- The canonical form of the breakpoint set (R31, C9: only membership is observed). -/
def bpWf (bp : List Addr) : Bool := bpWfFrom 0 bp

/-- A breakpoint set with one more member. -/
def bpInsert (a : Addr) : List Addr → List Addr
  | [] => [a]
  | b :: rest =>
    if a.toNat < b.toNat then a :: b :: rest
    else if a = b then b :: rest
    else b :: bpInsert a rest

/-- The breakpoint set of the loader: the host's addresses and always 0x8000 (R263). -/
def bpOf (bp : List Addr) : List Addr := bp.foldr bpInsert [Config.loadBase]

/-! ### Output strobe and PC advance -/

/-- `emit(b)` (R9): one `char_out` event (R195). -/
def State.emit (s : State) (b : Byte) : State := { s with out := s.out ++ [b] }

/-- The byte of DATA that is output, bits 7:0 (R28, R195). UNVERIFIED (log 9): the spec's decision
D6; unsafe where DATA is above 0xFF. -/
def outputByte (data : Word) : Byte := data.extractLsb' 0 8

/-- Step 6, the strobe check: a level test on WRITING; when nonzero, emit DATA's byte and clear
WRITING (R195, C3). -/
def State.strobe (s : State) : State :=
  if s.writing = 0x00000000#32 then s
  else (s.emit (outputByte s.data)).write Config.writingAddr 0x00000000#32

/-- Step 7, the PC advance, by value: the cell moves on by one word only if it still holds the fetch
address `a` (R190, C4). -/
def State.advancePc (s : State) (a : Word) : State :=
  if s.pc = a then s.setPc (a + 0x00000001#32) else s

/-- Steps 6 and 7, which follow the execute part of every instruction (R180). -/
def State.finish (s : State) (a : Word) : State := s.strobe.advancePc a

/-! ### Faults -/

/-- `raise`: the one shared operation of taking a fault (R9, R185, R231): mode becomes
Halted(cause), one `abort(cause)` event, memory and output as they were. No register is saved and
control goes nowhere: there is no trap entry (R231). -/
def State.raise (s : State) (cause : Fault) : State :=
  { s with mode := .halted cause, events := s.events ++ [.abort cause] }

/-! ### Breakpoints and the debugger -/

/-- Step 2 at a breakpoint: only `mode` changes, and `break(a)` is signalled (R181, R241). -/
def State.enterDebugging (s : State) : State :=
  { s with mode := .debugging, events := s.events ++ [.brk (cellOf s.pc)] }

/-- The host's oldest pending command has been taken. -/
def State.takeCmd (s : State) (rest : List DbgCmd) : State := { s with cmds := rest }

/-- Command Continue, first half: mode Running again (R242); the suspended step then goes on at
step 3 (R186). -/
def State.resume (s : State) : State := { s with mode := .running }

/-- Command Read: the host receives `M[a]` (R243). -/
def State.answerRead (s : State) (a : Addr) : State :=
  { s with events := s.events ++ [.dbgData (s.read a)] }

/-! ### Reset and load -/

/-- The image words from cell `n` upward (R262). -/
def storeImage (m : Memory) (n : Nat) : List Word → Memory
  | [] => m
  | w :: rest => storeImage (m.write (BitVec.ofNat 16 n) w) (n + 1) rest

/-- `load(image, bp)`, in the order of R261. An image of more than 32,768 words is an out-of-bounds
write and no Machine results (R262). DEDUCED (log 15): the fault names 0x00010000, the first address
past the space. -/
def load (image : List Word) (bp : List Addr) : Host.Outcome State Fault Refusal :=
  if imageFits image then
    .next
      { mem := (storeImage [] Config.loadBase.toNat image).write Config.pcAddr 0x00008000#32
        mode := .running
        bp := bpOf bp
        out := []
        cmds := []
        events := [] }
  else .fault (.outOfBounds 0x00010000#32)

end Sys2Proof.Machine
end

