-- ==== Sys2Proof/Machine/Operands.lean ====
section
/-! DEFINITION. The operand forms: zero-page registers, full addresses and the one immediate
(10_state.md R22, 30_encoding.md R84, 41_data_movement.md R153). -/

namespace Sys2Proof.Machine

/-- The cell an 8-bit field names: `zext_16(f)`, absolute (R84, R153). -/
def zeroPage (f : Byte) : Addr := f.setWidth 16

/-- `x[f]` on the right of an assignment: the same storage as `M[zext_16(f)]` (R9, R22). -/
def State.reg (s : State) (f : Byte) : Word := s.read (zeroPage f)

/-- `x[f] <- v` (R9). A write to `x[0]` is a write to the PC cell (R22). -/
def State.setReg (s : State) (f : Byte) (v : Word) : State := s.write (zeroPage f) v

/-- LI's immediate, `zext_32(imm)`: zero-extended, never sign-extended (R84, R152). -/
def immediate (imm : BitVec 16) : Word := imm.setWidth 32

end Sys2Proof.Machine
end

