-- ==== Sys2Proof/Machine/Alu.lean ====
section
/-! DEFINITION. The execute part of ADD, NEG, AND, OR and XOR (40_alu.md). Sources are read before
the destination is written (R135); the strobe check and the PC advance follow in the step. -/

namespace Sys2Proof.Machine

/-- Writes an arithmetic result, or raises the cautious parameter's fault with no state change (D1). -/
def writeResult (out : Byte) (r : Option Word) (s : State) : Host.Outcome State Fault Refusal :=
  match r with
  | some v => .next (s.setReg out v)
  | none => .fault .arithmeticOverflow

/-- ADD under either value of `ADD_OVERFLOW` (R130, R136, D1). -/
def execAddWith (p : Config.AddOverflow) (lhs rhs out : Byte) (s : State) :
    Host.Outcome State Fault Refusal :=
  writeResult out (addResult p (s.reg lhs) (s.reg rhs)) s

/-- NEG under either value of `ADD_OVERFLOW` (R131, R136, D2); `pad` is no operand (R89). -/
def execNegWith (p : Config.AddOverflow) (input out _pad : Byte) (s : State) :
    Host.Outcome State Fault Refusal :=
  writeResult out (negResult p (s.reg input)) s

/-- ADD: `x[out] <- (x[lhs] + x[rhs]) mod 2^32` (R130). -/
def execAdd (lhs rhs out : Byte) (s : State) : Host.Outcome State Fault Refusal :=
  execAddWith Config.addOverflow lhs rhs out s

/-- NEG: `x[out] <- (~x[input] + 1) mod 2^32`; `pad` is carried and ignored (R131). -/
def execNeg (input out pad : Byte) (s : State) : Host.Outcome State Fault Refusal :=
  execNegWith Config.addOverflow input out pad s

/-- AND: `x[out] <- x[lhs] & x[rhs]` (R132). -/
def execAnd (lhs rhs out : Byte) (s : State) : Host.Outcome State Fault Refusal :=
  .next (s.setReg out (s.reg lhs &&& s.reg rhs))

/-- OR: `x[out] <- x[lhs] | x[rhs]` (R133). -/
def execOr (lhs rhs out : Byte) (s : State) : Host.Outcome State Fault Refusal :=
  .next (s.setReg out (s.reg lhs ||| s.reg rhs))

/-- XOR: `x[out] <- x[lhs] ^ x[rhs]` (R134). -/
def execXor (lhs rhs out : Byte) (s : State) : Host.Outcome State Fault Refusal :=
  .next (s.setReg out (s.reg lhs ^^^ s.reg rhs))

end Sys2Proof.Machine
end

