-- ==== Sys2Proof/Machine/ConditionalMove.lean ====
section
/-! DEFINITION. The execute part of LP (42_conditional_move.md). -/

namespace Sys2Proof.Machine

/-- LP: `if signed(x[cond]) > 0 then x[to] <- x[from]`, else no cell is written (R170). -/
def execLp (cond src dst : Byte) (s : State) : Host.Outcome State Fault Refusal :=
  if isPositive (s.reg cond) then .next (s.setReg dst (s.reg src)) else .next s

end Sys2Proof.Machine
end

