-- ==== Sys2Proof/Machine/DataMovement.lean ====
section
/-! DEFINITION. The execute part of L, S and LI (41_data_movement.md). Addressing is absolute and
every access moves a whole cell (R153); none can fault (R154). -/

namespace Sys2Proof.Machine

/-- L: `x[to] <- M[from]` (R150). -/
def execL (src : Addr) (dst : Byte) (s : State) : Host.Outcome State Fault Refusal :=
  .next (s.setReg dst (s.read src))

/-- S: `M[to] <- x[from]` (R151). -/
def execS (src : Byte) (dst : Addr) (s : State) : Host.Outcome State Fault Refusal :=
  .next (s.write dst (s.reg src))

/-- LI: `x[addr] <- zext_32(imm)` (R152). -/
def execLi (addr : Byte) (imm : BitVec 16) (s : State) : Host.Outcome State Fault Refusal :=
  .next (s.setReg addr (immediate imm))

end Sys2Proof.Machine
end

