-- ==== Sys2Proof/Machine/Dispatch.lean ====
section
/-! DEFINITION. The execute part of a step (43_execution_cycle.md R180 step 5): one arm per
instruction, each one call of its meaning. -/

namespace Sys2Proof.Machine

/-- Executes one decoded instruction by its own rule (R184). -/
def exec (i : Instr) (s : State) : Host.Outcome State Fault Refusal :=
  match i with
  | .add lhs rhs out => Sys2Proof.Machine.execAdd lhs rhs out s
  | .neg input out pad => Sys2Proof.Machine.execNeg input out pad s
  | .and lhs rhs out => Sys2Proof.Machine.execAnd lhs rhs out s
  | .or lhs rhs out => Sys2Proof.Machine.execOr lhs rhs out s
  | .xor lhs rhs out => Sys2Proof.Machine.execXor lhs rhs out s
  | .l src dst => Sys2Proof.Machine.execL src dst s
  | .s src dst => Sys2Proof.Machine.execS src dst s
  | .li addr imm => Sys2Proof.Machine.execLi addr imm s
  | .lp cond src dst => Sys2Proof.Machine.execLp cond src dst s

end Sys2Proof.Machine
end

