-- ==== Sys2Proof/Machine/Cycle.lean ====
section
/-! DEFINITION. The fetch-decode-execute cycle (43_execution_cycle.md R180): `ExecuteAt`, the step of
each run-loop mode, and where a word to be fetched next is placed. -/

namespace Sys2Proof.Machine

/-- Step 3's read: the whole cell at a fetch address in range (20_memory.md R55, R182). -/
def State.fetch (s : State) (a : Word) : Word := s.read (cellOf a)

/-- Step 5 for a decoded instruction, with steps 6 and 7 after it (R180). A fault of the execute
part, possible only under `ADD_OVERFLOW = fault`, changes nothing else (D1). -/
def runInstr (a : Word) (i : Instr) (s : State) : Host.Outcome State Fault Refusal :=
  match exec i s with
  | .next t => .next (t.finish a)
  | .fault f => .next (s.raise f)
  | .refused r => .refused r

/-- `ExecuteAt(a)`, steps 3 to 7 as one transition (R180): fetch (R182), length test (R183), decode
and execute (R184), strobe check (R195), PC advance (R190). -/
def executeAt (a : Word) (s : State) : Host.Outcome State Fault Refusal :=
  if inRange a then
    match decode (s.fetch a) with
    | .unsupported op => .next (s.raise (.unsupportedVLE op))
    | .illegal op => .next (s.raise (.illegalOpcode op))
    | .instr i => runInstr a i s
  else .next (s.raise (.outOfBounds a))

/-- A step in mode Running: the breakpoint test (R181), then `ExecuteAt` (R180). -/
def stepRunning (s : State) : Host.Outcome State Fault Refusal :=
  if s.atBreakpoint then .next s.enterDebugging else executeAt s.pc s

/-- A step in mode Debugging: one command of the host's, or a wait that changes nothing when it has
issued none (R240 to R245, U9). Continue runs the suspended instruction without a second breakpoint
test (R186). -/
def stepDebugging (s : State) : Host.Outcome State Fault Refusal :=
  match s.cmds with
  | [] => .next s
  | .cont :: rest => executeAt s.pc (s.takeCmd rest).resume
  | .read a :: rest => .next ((s.takeCmd rest).answerRead a)
  | .exit :: rest => .next ((s.takeCmd rest).raise .debuggerExit)
  | .invalid :: rest => .next (s.takeCmd rest)

/-- A fetch address a word can be placed at: in range, and not cell 0, which is the PC itself (R274). -/
def placeable (a : Word) : Bool := inRange a && decide (a ≠ 0x00000000#32)

/-- The state whose PC names a cell a word can be placed at: as it is, or at the load base. -/
def State.withPlaceablePc (s : State) : State :=
  if placeable s.pc then s else s.setPc 0x00008000#32

/-- The state that executes the word at its PC in its next step: as it is when Running with no
breakpoint there, else suspended in Debugging with the host's Continue pending (R186). -/
def State.readyToExecute (s : State) : State :=
  if s.mode = .running ∧ s.atBreakpoint = false then s
  else { s with mode := .debugging, cmds := .cont :: s.cmds }

/-- Puts a word where the next step fetches it, and lets that step execute it (log 16). -/
def State.placeWord (s : State) (w : Word) : State :=
  let p := s.withPlaceablePc
  (p.write (cellOf p.pc) w).readyToExecute

end Sys2Proof.Machine
end

