-- ==== Sys2Proof/Machine/Step.lean ====
section
/-! DEFINITION. One step of the Machine, by run-loop mode (10_state.md R30, 43_execution_cycle.md
R180), and the host's `withFetchWord`. -/

namespace Sys2Proof.Machine

/-- One step. Running takes a step of R180, Debugging takes one host command (R240), and Halted has
no transition of any kind (R232): it answers its cause. -/
def step (s : State) : Host.Outcome State Fault Refusal :=
  match s.mode with
  | .running => stepRunning s
  | .debugging => stepDebugging s
  | .halted cause => .fault cause

/-- `s` with the instruction word `w` (bits numbered as the opcode table numbers them, those above
`nbits` zero) placed so that the very next step fetches and runs exactly it (log 16). -/
def State.withFetchWord (s : State) (nbits w : Nat) : State := s.placeWord (tableWord nbits w)

end Sys2Proof.Machine
end

