-- ==== Sys2Proof/Machine/Assembler.lean ====
section
/-! DEFINITION. The assembler's mapping from source text to an image and a breakpoint list
(30_encoding.md R110 to R119). It is host software that runs before a Machine exists
(00_scope.md R5); no step depends on it. Where the source gives an input no meaning, what happens here
is the model's choice, and each such place says so (91_not_in_source.md N9, N10; log 20, 22 to 25);
most are answered by the named error `notInSource`. Text is a list of characters. -/

namespace Sys2Proof.Machine

/-- Why an assembly ends without a program; none is a hardware fault (R117, R225). -/
inductive AsmError where
  /-- Code (c): the mnemonic is none of the nine. -/
  | unknownMnemonic
  /-- Code (d): an operand names no label. -/
  | unresolvedSymbol
  /-- The source does not say what this input does (N9, N10, U11). DESIGN CHOICE (log 20). -/
  | notInSource
deriving DecidableEq, Repr

/-- A token of a line. -/
abbrev Token := List Char

/-- The symbol table: a label and the absolute address it names (R111). -/
abbrev Symbols := List (Token × Nat)

/-- The pieces of a text between separators, empty ones dropped. -/
def pieces (isSep : Char → Bool) : List Char → List Char → List (List Char)
  | acc, [] => if acc.isEmpty then [] else [acc.reverse]
  | acc, c :: rest =>
    if isSep c then
      if acc.isEmpty then pieces isSep [] rest else acc.reverse :: pieces isSep [] rest
    else pieces isSep (c :: acc) rest

/-- A line's tokens, which white space separates (R110, R113). DESIGN CHOICE (log 25): any run of
spaces, tabs and carriage returns is one separator, which N9 (5) leaves open. -/
def tokensOf (line : List Char) : List Token := pieces Char.isWhitespace [] line

/-- The non-blank lines of a text, as tokens; blank lines are ignored (R110). -/
def linesOf (text : List Char) : List (List Token) :=
  ((pieces (fun c => c == '\n') [] text).map tokensOf).filter (fun l => !l.isEmpty)

/-- A line taken apart: its label, its breakpoint marker, its mnemonic and its operand tokens. -/
structure AsmLine where
  label : Option Token
  brk : Bool
  mnemonic : Token
  operands : List Token
deriving DecidableEq, Repr

/-- A label's name, its token without the trailing `:` (R111). DESIGN CHOICE (log 22): it may hold any
characters, which N9 (6) leaves open; an empty name, and one with a digit first (N10), are answered
`notInSource`. -/
def labelName (t : Token) : Except AsmError Token :=
  match t with
  | [] => .error .notInSource
  | c :: _ => if c.isDigit then .error .notInSource else .ok t

/-- The breakpoint marker, joined to the mnemonic, and what follows it (R112). White space after the
marker is an input the source does not settle (N9 (1)): DESIGN CHOICE (log 20), `notInSource`. -/
def parseBody (label : Option Token) : List Token → Except AsmError AsmLine
  | [] => .error .notInSource
  | ['~'] :: _ => .error .notInSource
  | ('~' :: m) :: ops => .ok ⟨label, true, m, ops⟩
  | m :: ops => .ok ⟨label, false, m, ops⟩

/-- A line of tokens: an optional label, then the marker, then the mnemonic (R110 to R112). -/
def parseLine : List Token → Except AsmError AsmLine
  | [] => .error .notInSource
  | t :: rest =>
    if t.getLast? = some ':' then
      match labelName t.dropLast with
      | .ok name => parseBody (some name) rest
      | .error e => .error e
    else parseBody none (t :: rest)

/-- All lines taken apart, or the first error. -/
def parseLines : List (List Token) → Except AsmError (List AsmLine)
  | [] => .ok []
  | l :: rest =>
    match parseLine l with
    | .error e => .error e
    | .ok p =>
      match parseLines rest with
      | .error e => .error e
      | .ok ps => .ok (p :: ps)

/-- The mnemonics, upper case (R113, D12). -/
def Kind.mnemonic : Kind → Token
  | .add => ['A', 'D', 'D']
  | .neg => ['N', 'E', 'G']
  | .and => ['A', 'N', 'D']
  | .or => ['O', 'R']
  | .xor => ['X', 'O', 'R']
  | .l => ['L']
  | .s => ['S']
  | .li => ['L', 'I']
  | .lp => ['L', 'P']

/-- The kind a mnemonic names (R113). Another case of a known mnemonic is not settled (N9 (2)): DESIGN
CHOICE (log 20), `notInSource` and not `unknownMnemonic`. -/
def kindOfMnemonic (t : Token) : Except AsmError Kind :=
  match Kind.all.find? (fun k => Kind.mnemonic k == t) with
  | some k => .ok k
  | none =>
    if Kind.all.any (fun k => Kind.mnemonic k == t.map Char.toUpper) then .error .notInSource
    else .error .unknownMnemonic

/-- A digit's value in a radix up to sixteen. DESIGN CHOICE (log 25): a hexadecimal digit above nine
may be a letter of either case, which the source does not say. -/
def digitValue (radix : Nat) (c : Char) : Option Nat :=
  let v :=
    if c.isDigit then some (c.toNat - '0'.toNat)
    else if 'a'.toNat ≤ c.toNat ∧ c.toNat ≤ 'f'.toNat then some (c.toNat - 'a'.toNat + 10)
    else if 'A'.toNat ≤ c.toNat ∧ c.toNat ≤ 'F'.toNat then some (c.toNat - 'A'.toNat + 10)
    else none
  v.filter (fun d => d < radix)

/-- The value of digits after what has been read. -/
def digits (radix : Nat) : Nat → List Char → Option Nat
  | acc, [] => some acc
  | acc, c :: rest =>
    match digitValue radix c with
    | some d => digits radix (acc * radix + d) rest
    | none => none

/-- A numeric literal. A malformed one, and one wider than 32 bits, is not settled (N10): DESIGN
CHOICE (log 20), `notInSource`. -/
def literal (radix : Nat) (ds : List Char) : Except AsmError Nat :=
  if ds.isEmpty then .error .notInSource
  else
    match digits radix 0 ds with
    | some v => if v < 2 ^ 32 then .ok v else .error .notInSource
    | none => .error .notInSource

/-- The operand grammar, its tests in the order of R114: `0x`, `:`, a digit, else a symbol. DESIGN
CHOICE (log 23): where nothing is left after `:` is stripped (a token of colons alone), the answer is
`notInSource` and not a lookup of the empty symbol, which U11 leaves open. -/
def operandValue (symbols : Symbols) : Token → Except AsmError Nat
  | [] => .error .notInSource
  | '0' :: 'x' :: ds => literal 16 ds
  | ':' :: rest => operandValue symbols rest
  | c :: rest =>
    if c.isDigit then literal 10 (c :: rest)
    else
      match symbols.lookup (c :: rest) with
      | some v => .ok v
      | none => .error .unresolvedSymbol

/-- All operand values of a line, or the first error. -/
def operandValues (symbols : Symbols) : List Token → Except AsmError (List Nat)
  | [] => .ok []
  | t :: rest =>
    match operandValue symbols t with
    | .error e => .error e
    | .ok v =>
      match operandValues symbols rest with
      | .error e => .error e
      | .ok vs => .ok (v :: vs)

/-- A field of a given width keeps the low-order bits of an operand value (R115). UNVERIFIED:
that truncation keeps the low-order bits is general knowledge (G4, log 20). -/
def truncated (n v : Nat) : BitVec n := BitVec.ofNat n v

/-- The record of a mnemonic and its operand values in column order (R113); NEG's `pad` is 0 (R89).
Too few or too many operands are not settled (N10): DESIGN CHOICE (log 20), `notInSource`. -/
def recordOf : Kind → List Nat → Except AsmError Instr
  | .add, [a, b, c] => .ok (.add (truncated 8 a) (truncated 8 b) (truncated 8 c))
  | .neg, [a, b] => .ok (.neg (truncated 8 a) (truncated 8 b) 0x00#8)
  | .and, [a, b, c] => .ok (.and (truncated 8 a) (truncated 8 b) (truncated 8 c))
  | .or, [a, b, c] => .ok (.or (truncated 8 a) (truncated 8 b) (truncated 8 c))
  | .xor, [a, b, c] => .ok (.xor (truncated 8 a) (truncated 8 b) (truncated 8 c))
  | .l, [a, b] => .ok (.l (truncated 16 a) (truncated 8 b))
  | .s, [a, b] => .ok (.s (truncated 8 a) (truncated 16 b))
  | .li, [a, b] => .ok (.li (truncated 8 a) (truncated 16 b))
  | .lp, [a, b, c] => .ok (.lp (truncated 8 a) (truncated 8 b) (truncated 8 c))
  | _, _ => .error .notInSource

/-- Pass 1: each line's label at `0x8000 + n`, `n` its index (R111, R116). A label defined twice is
not settled (N10): DESIGN CHOICE (log 20), `notInSource`. -/
def symbolsOf : Nat → Symbols → List AsmLine → Except AsmError Symbols
  | _, acc, [] => .ok acc
  | n, acc, l :: rest =>
    match l.label with
    | none => symbolsOf (n + 1) acc rest
    | some name =>
      if acc.any (fun e => e.1 == name) then .error .notInSource
      else symbolsOf (n + 1) (acc ++ [(name, Config.loadBase.toNat + n)]) rest

/-- Pass 1: the address of each marked line (R112). DESIGN CHOICE (log 25): past line 32,767, whose
image no loader takes (R262), the address is cut to 16 bits. -/
def breakpointsOf : Nat → List AsmLine → List Addr
  | _, [] => []
  | n, l :: rest =>
    if l.brk then BitVec.ofNat 16 (Config.loadBase.toNat + n) :: breakpointsOf (n + 1) rest
    else breakpointsOf (n + 1) rest

/-- One line as an instruction record (R110, R113): every line is one of the nine instructions,
there being no pseudo-instructions (R118). -/
def instrOf (symbols : Symbols) (l : AsmLine) : Except AsmError Instr :=
  match kindOfMnemonic l.mnemonic with
  | .error e => .error e
  | .ok k =>
    match operandValues symbols l.operands with
    | .error e => .error e
    | .ok vs => recordOf k vs

/-- Pass 2: one record per line, in order, with symbols resolved (R116). -/
def instrsOf (symbols : Symbols) : List AsmLine → Except AsmError (List Instr)
  | [] => .ok []
  | l :: rest =>
    match instrOf symbols l with
    | .error e => .error e
    | .ok i =>
      match instrsOf symbols rest with
      | .error e => .error e
      | .ok is => .ok (i :: is)

/-- The instruction stream and the breakpoint list of a source text, by two passes (R110 to R117).
DESIGN CHOICE (log 24): which error a text with several gives. The lines' forms are checked first, then
the labels, then the lines in order, the mnemonic before the operands and the operands left to right
(R117 and R225 give no order). -/
def assemble (text : List Char) : Except AsmError (List Instr × List Addr) :=
  match parseLines (linesOf text) with
  | .error e => .error e
  | .ok ls =>
    match symbolsOf 0 [] ls with
    | .error e => .error e
    | .ok symbols =>
      match instrsOf symbols ls with
      | .error e => .error e
      | .ok is => .ok (is, breakpointsOf 0 ls)

/-- The image of an instruction stream: each record's `encode`, one word a line (R119, R262). -/
def imageOf (program : List Instr) : List Word := program.map encode

end Sys2Proof.Machine
end

