-- ==== Sys2Proof/Safety.lean ====
section
/-! DEFINITION. What a safe run is, in the terms the claims use: the representation invariant, the
flag invariant of WRITING (10_state.md R27), a fatal end (60_exceptions.md R232), and frames. -/

namespace Sys2Proof.Machine

/-- The representation invariant: memory and the breakpoint set are in their canonical forms, and
0x8000 is a breakpoint (R263: "address `0x8000` is always an implicit breakpoint"). -/
abbrev State.Inv (s : State) : Prop :=
  s.mem.wf = true ∧ bpWf s.bp = true ∧ Config.loadBase ∈ s.bp

/-- A run that ended by a fault of the program: never a successful final state (R232, D15). The
debugger's exit is the only non-fault end (R244, R277). -/
def State.faulted (s : State) : Bool :=
  match s.mode with
  | .running => false
  | .debugging => false
  | .halted .debuggerExit => false
  | .halted (.outOfBounds _) => true
  | .halted (.unsupportedVLE _) => true
  | .halted (.illegalOpcode _) => true
  | .halted .arithmeticOverflow => true

/-- Everything beside the memory array is the same in two states. -/
structure SameBesideMemory (s t : State) : Prop where
  mode : t.mode = s.mode
  bp : t.bp = s.bp
  out : t.out = s.out
  cmds : t.cmds = s.cmds
  events : t.events = s.events

/-- `t` is `s` but for the one cell `a`, which holds `v`: every other cell reads as before, and
nothing beside memory differs. -/
structure OneCellSet (s t : State) (a : Addr) (v : Word) : Prop where
  value : t.read a = v
  others : ∀ b : Addr, b ≠ a → t.read b = s.read b
  beside : SameBesideMemory s t

/-- Every cell reads the same in two states. -/
def SameCells (s t : State) : Prop := ∀ a : Addr, t.read a = s.read a

/-- The next step of `s` executes the instruction at its PC: the PC is in range and no breakpoint
holds it, or the host's Continue for it is pending (R180, R186). `u` is the state its execute part
starts from. -/
inductive ExecutesFrom (s u : State) : Prop where
  | running (mode : s.mode = .running) (range : s.pc.toNat ≤ 0xFFFF)
      (noBreak : cellOf s.pc ∉ s.bp) (same : u = s)
  | continued (rest : List DbgCmd) (mode : s.mode = .debugging) (range : s.pc.toNat ≤ 0xFFFF)
      (cmd : s.cmds = .cont :: rest) (same : u = { s with mode := .running, cmds := rest })

/-- The whole effect of a step whose execute part started in `u` and set cell `a` to `v` (or, with
`a` the PC cell and `v` its own value, set nothing): the PC advance by value (R190), the strobe check
(R195), and nothing else. -/
structure StepEffect (u t : State) (a : Addr) (v : Word) : Prop where
  pc : t.pc = if a = Config.pcAddr ∧ v ≠ u.pc then v else u.pc + 0x00000001#32
  cell : a ≠ Config.pcAddr → a ≠ Config.writingAddr → t.read a = v
  others : ∀ b : Addr, b ≠ a → b ≠ Config.pcAddr → b ≠ Config.writingAddr → t.read b = u.read b
  writing : t.writing = 0x00000000#32
  out : t.out =
    if (if a = Config.writingAddr then v else u.writing) = 0x00000000#32 then u.out
    else u.out ++ [outputByte (if a = Config.dataAddr then v else u.data)]
  mode : t.mode = .running
  bp : t.bp = u.bp
  cmds : t.cmds = u.cmds
  events : t.events = u.events

/-- The whole effect of steps 6 and 7 of a step with fetch address `a`, from the state `t` the
execute part left (R190, R195). -/
structure FinishEffect (a : Word) (t v : State) : Prop where
  pc : v.pc = if t.pc = a then a + 0x00000001#32 else t.pc
  writing : v.writing = 0x00000000#32
  out : v.out =
    if t.writing = 0x00000000#32 then t.out else t.out ++ [t.data.extractLsb' 0 8]
  others : ∀ b : Addr, b ≠ Config.pcAddr → b ≠ Config.writingAddr → v.read b = t.read b
  mode : v.mode = t.mode
  bp : v.bp = t.bp
  cmds : v.cmds = t.cmds
  events : v.events = t.events

/-- The whole effect of raising `c` in `u` (R185, R231). -/
structure FaultEffect (u t : State) (c : Fault) : Prop where
  mem : t.mem = u.mem
  out : t.out = u.out
  bp : t.bp = u.bp
  cmds : t.cmds = u.cmds
  mode : t.mode = .halted c
  events : t.events = u.events ++ [.abort c]

/-- `n` steps, stopping at the first fault or refusal. -/
def runSteps : Nat → State → Host.Outcome State Fault Refusal
  | 0, s => .next s
  | n + 1, s =>
    match step s with
    | .next t => runSteps n t
    | .fault c => .fault c
    | .refused r => .refused r

/-- `s` with no breakpoint, no pending command and no event: a Machine without host interaction. -/
def State.alone (s : State) : State := { s with bp := [], cmds := [], events := [] }

end Sys2Proof.Machine
end

