-- ==== Sys2Proof/Certificates/Slice0/Obligations.lean ====
section
/-! DEFINITION. The statements about the model, each citing the rule of spec/ it comes from.
OBLIGATIONS.json lists them. `ExecutesFrom s u` (Safety.lean) says that the next step of `s` executes
the instruction at its PC and that `u` is where its execute part starts. -/

open Sys2Proof Sys2Proof.Machine

/-! ### The codec (30_encoding.md) -/

/-- R94: `encode` and `decode` are exact inverses, `encode` is injective, and its image is the
9 x 2^24 words whose opcode byte is one of the nine. -/
def Obligations.CodecExactInverses : Prop :=
  (∀ i : Instr, decode (encode i) = .instr i) ∧
  (∀ (w : Word) (i : Instr), decode w = .instr i → encode i = w) ∧
  Function.Injective encode ∧
  (∀ w : Word, (∃ i, encode i = w) ↔
    w.extractLsb' 24 8 ∈
      [0x00#8, 0x01#8, 0x02#8, 0x04#8, 0x05#8, 0x06#8, 0x09#8, 0x0A#8, 0x0C#8]) ∧
  Nat.card { w : Word // ∃ i, encode i = w } = 9 * 2 ^ 24

/-- R91: `encode` is the opcode byte followed by the operand bytes, a 16-bit field low byte first. -/
def Obligations.EncodePacksTheBytes : Prop :=
  (∀ l r o : Byte, encode (.add l r o) = (0x00#8 ++ l ++ r ++ o : BitVec 32)) ∧
  (∀ i o p : Byte, encode (.neg i o p) = (0x01#8 ++ i ++ o ++ p : BitVec 32)) ∧
  (∀ l r o : Byte, encode (.and l r o) = (0x02#8 ++ l ++ r ++ o : BitVec 32)) ∧
  (∀ l r o : Byte, encode (.or l r o) = (0x04#8 ++ l ++ r ++ o : BitVec 32)) ∧
  (∀ l r o : Byte, encode (.xor l r o) = (0x05#8 ++ l ++ r ++ o : BitVec 32)) ∧
  (∀ (f : Addr) (t : Byte), encode (.l f t) =
    (0x06#8 ++ f.extractLsb' 0 8 ++ f.extractLsb' 8 8 ++ t : BitVec 32)) ∧
  (∀ (f : Byte) (t : Addr), encode (.s f t) =
    (0x09#8 ++ f ++ t.extractLsb' 0 8 ++ t.extractLsb' 8 8 : BitVec 32)) ∧
  (∀ (a : Byte) (m : BitVec 16), encode (.li a m) =
    (0x0A#8 ++ a ++ m.extractLsb' 0 8 ++ m.extractLsb' 8 8 : BitVec 32)) ∧
  (∀ c f t : Byte, encode (.lp c f t) = (0x0C#8 ++ c ++ f ++ t : BitVec 32))

/-- R93: the length test comes first, then the opcode byte selects the decoder, and every other
opcode is illegal; what it answers is what the selected kind's own decoder answers, so no
FormatViolation arises (that clause is an inference of the spec). -/
def Obligations.DecodeDispatchesOnTheOpcodeByte : Prop :=
  ∀ w : Word,
    let op := w.extractLsb' 24 8
    let b1 := w.extractLsb' 16 8
    let b2 := w.extractLsb' 8 8
    let b3 := w.extractLsb' 0 8
    (op.extractLsb' 0 2 = 0b11#2 → decode w = .unsupported op) ∧
    (op = 0x00#8 → decode w = .instr (.add b1 b2 b3)) ∧
    (op = 0x01#8 → decode w = .instr (.neg b1 b2 b3)) ∧
    (op = 0x02#8 → decode w = .instr (.and b1 b2 b3)) ∧
    (op = 0x04#8 → decode w = .instr (.or b1 b2 b3)) ∧
    (op = 0x05#8 → decode w = .instr (.xor b1 b2 b3)) ∧
    (op = 0x06#8 → decode w = .instr (.l (b2 ++ b1) b3)) ∧
    (op = 0x09#8 → decode w = .instr (.s b1 (b3 ++ b2))) ∧
    (op = 0x0A#8 → decode w = .instr (.li b1 (b3 ++ b2))) ∧
    (op = 0x0C#8 → decode w = .instr (.lp b1 b2 b3)) ∧
    (op.extractLsb' 0 2 ≠ 0b11#2 →
      op ∉ [0x00#8, 0x01#8, 0x02#8, 0x04#8, 0x05#8, 0x06#8, 0x09#8, 0x0A#8, 0x0C#8] →
      decode w = .illegal op) ∧
    (∀ i, decode w = .instr i → decodeAs i.kind w = .ok i)

/-- R92: a kind-specific decoder raises FormatViolation, with the word and the kind, exactly when the
leading byte is not its kind's opcode, and otherwise answers the record of its format's slices. -/
def Obligations.KindDecodersCheckTheLeadingByte : Prop :=
  (∀ (k : Kind) (w : Word), decodeAs k w = .error ⟨w, k⟩ ↔ w.extractLsb' 24 8 ≠ k.opcode) ∧
  ∀ w : Word,
    let op := w.extractLsb' 24 8
    let b1 := w.extractLsb' 16 8
    let b2 := w.extractLsb' 8 8
    let b3 := w.extractLsb' 0 8
    (op = 0x00#8 → decodeAs .add w = .ok (.add b1 b2 b3)) ∧
    (op = 0x01#8 → decodeAs .neg w = .ok (.neg b1 b2 b3)) ∧
    (op = 0x02#8 → decodeAs .and w = .ok (.and b1 b2 b3)) ∧
    (op = 0x04#8 → decodeAs .or w = .ok (.or b1 b2 b3)) ∧
    (op = 0x05#8 → decodeAs .xor w = .ok (.xor b1 b2 b3)) ∧
    (op = 0x06#8 → decodeAs .l w = .ok (.l (b2 ++ b1) b3)) ∧
    (op = 0x09#8 → decodeAs .s w = .ok (.s b1 (b3 ++ b2))) ∧
    (op = 0x0A#8 → decodeAs .li w = .ok (.li b1 (b3 ++ b2))) ∧
    (op = 0x0C#8 → decodeAs .lp w = .ok (.lp b1 b2 b3))

/-- R95: the nine worked words, encoded and decoded. -/
def Obligations.WorkedEncodingsBothWays : Prop :=
  ∀ p ∈ [(Instr.add 0x10#8 0x11#8 0x12#8, 0x00101112#32),
      (Instr.neg 0x10#8 0x11#8 0x00#8, 0x01101100#32),
      (Instr.and 0x20#8 0x21#8 0x22#8, 0x02202122#32),
      (Instr.or 0x20#8 0x21#8 0x22#8, 0x04202122#32),
      (Instr.xor 0x20#8 0x21#8 0x22#8, 0x05202122#32),
      (Instr.l 0x8003#16 0x05#8, 0x06038005#32),
      (Instr.s 0x10#8 0xFFFE#16, 0x0910FEFF#32),
      (Instr.li 0x10#8 0x1234#16, 0x0A103412#32),
      (Instr.lp 0x10#8 0x11#8 0x00#8, 0x0C101100#32)],
    encode p.1 = p.2 ∧ decode p.2 = .instr p.1

/-! ### The zero-page registers (10_state.md section 2) -/

/-- R9, R22, R84, R153: an 8-bit field `f` names the cell of address `f` itself; register `f` is read and
written as that cell, so an L or S that names it by its 16-bit address reaches the same storage; and a
write to one register leaves the other 255 as they are. -/
def Obligations.ZeroPageFieldsNameTheirOwnCells : Prop :=
  ∀ f : Byte,
    zeroPage f = BitVec.ofNat 16 f.toNat ∧
    ∀ (s : State) (v : Word),
      s.reg f = s.read (BitVec.ofNat 16 f.toNat) ∧
      s.setReg f v = s.write (BitVec.ofNat 16 f.toNat) v ∧
      (∀ g : Byte, (s.setReg f v).reg g = if g = f then v else s.reg g) ∧
      ∀ g : Byte,
        exec (.l (BitVec.ofNat 16 f.toNat) g) s = .next (s.setReg g (s.reg f)) ∧
        exec (.s g (BitVec.ofNat 16 f.toNat)) s = .next (s.setReg f (s.reg g))

/-! ### The nine instructions (40_alu.md, 41_data_movement.md, 42_conditional_move.md)

Each says: which words are the instruction; that its execute part completes in every state, what it
writes, and that nothing else changes; and the whole effect of the step that runs it, jumps included. -/

/-- R130: ADD writes the sum modulo 2^32 to `x[out]`. -/
def Obligations.AddWritesTheSum : Prop :=
  (∀ w : Word, w.extractLsb' 24 8 = 0x00#8 →
    decode w = .instr (.add (w.extractLsb' 16 8) (w.extractLsb' 8 8) (w.extractLsb' 0 8))) ∧
  ∀ (lhs rhs out : Byte),
    (∀ s : State, ∃ t, exec (.add lhs rhs out) s = .next t ∧
      OneCellSet s t (zeroPage out)
        (BitVec.ofNat 32 ((s.reg lhs).toNat + (s.reg rhs).toNat))) ∧
    (∀ s u : State, ExecutesFrom s u → decode (u.fetch u.pc) = .instr (.add lhs rhs out) →
      ∃ t, step s = .next t ∧ StepEffect u t (zeroPage out)
        (BitVec.ofNat 32 ((u.reg lhs).toNat + (u.reg rhs).toNat)))

/-- R131: NEG writes the two's-complement negation to `x[out]`, whatever `pad` is. -/
def Obligations.NegWritesTheNegation : Prop :=
  (∀ w : Word, w.extractLsb' 24 8 = 0x01#8 →
    decode w = .instr (.neg (w.extractLsb' 16 8) (w.extractLsb' 8 8) (w.extractLsb' 0 8))) ∧
  ∀ (input out pad : Byte),
    (∀ s : State, ∃ t, exec (.neg input out pad) s = .next t ∧
      OneCellSet s t (zeroPage out) (BitVec.ofNat 32 (2 ^ 32 - (s.reg input).toNat))) ∧
    (∀ s u : State, ExecutesFrom s u → decode (u.fetch u.pc) = .instr (.neg input out pad) →
      ∃ t, step s = .next t ∧ StepEffect u t (zeroPage out)
        (BitVec.ofNat 32 (2 ^ 32 - (u.reg input).toNat)))

/-- R132: AND writes the bitwise and, bit by bit, to `x[out]`. -/
def Obligations.AndWritesTheConjunction : Prop :=
  (∀ w : Word, w.extractLsb' 24 8 = 0x02#8 →
    decode w = .instr (.and (w.extractLsb' 16 8) (w.extractLsb' 8 8) (w.extractLsb' 0 8))) ∧
  ∀ (lhs rhs out : Byte),
    (∀ s : State, ∃ t v, exec (.and lhs rhs out) s = .next t ∧ OneCellSet s t (zeroPage out) v ∧
      ∀ n, v.getLsbD n = ((s.reg lhs).getLsbD n && (s.reg rhs).getLsbD n)) ∧
    (∀ s u : State, ExecutesFrom s u → decode (u.fetch u.pc) = .instr (.and lhs rhs out) →
      ∃ t, step s = .next t ∧ StepEffect u t (zeroPage out) (u.reg lhs &&& u.reg rhs))

/-- R133: OR writes the bitwise or, bit by bit, to `x[out]`. -/
def Obligations.OrWritesTheDisjunction : Prop :=
  (∀ w : Word, w.extractLsb' 24 8 = 0x04#8 →
    decode w = .instr (.or (w.extractLsb' 16 8) (w.extractLsb' 8 8) (w.extractLsb' 0 8))) ∧
  ∀ (lhs rhs out : Byte),
    (∀ s : State, ∃ t v, exec (.or lhs rhs out) s = .next t ∧ OneCellSet s t (zeroPage out) v ∧
      ∀ n, v.getLsbD n = ((s.reg lhs).getLsbD n || (s.reg rhs).getLsbD n)) ∧
    (∀ s u : State, ExecutesFrom s u → decode (u.fetch u.pc) = .instr (.or lhs rhs out) →
      ∃ t, step s = .next t ∧ StepEffect u t (zeroPage out) (u.reg lhs ||| u.reg rhs))

/-- R134: XOR writes the bitwise exclusive or, bit by bit, to `x[out]`. -/
def Obligations.XorWritesTheDifference : Prop :=
  (∀ w : Word, w.extractLsb' 24 8 = 0x05#8 →
    decode w = .instr (.xor (w.extractLsb' 16 8) (w.extractLsb' 8 8) (w.extractLsb' 0 8))) ∧
  ∀ (lhs rhs out : Byte),
    (∀ s : State, ∃ t v, exec (.xor lhs rhs out) s = .next t ∧ OneCellSet s t (zeroPage out) v ∧
      ∀ n, v.getLsbD n = ((s.reg lhs).getLsbD n ^^ (s.reg rhs).getLsbD n)) ∧
    (∀ s u : State, ExecutesFrom s u → decode (u.fetch u.pc) = .instr (.xor lhs rhs out) →
      ∃ t, step s = .next t ∧ StepEffect u t (zeroPage out) (u.reg lhs ^^^ u.reg rhs))

/-- R150: L copies the cell at a full address to a zero-page register. -/
def Obligations.LoadCopiesTheCell : Prop :=
  (∀ w : Word, w.extractLsb' 24 8 = 0x06#8 →
    decode w = .instr (.l (w.extractLsb' 8 8 ++ w.extractLsb' 16 8) (w.extractLsb' 0 8))) ∧
  ∀ (src : Addr) (dst : Byte),
    (∀ s : State, ∃ t, exec (.l src dst) s = .next t ∧
      OneCellSet s t (zeroPage dst) (s.read src)) ∧
    (∀ s u : State, ExecutesFrom s u → decode (u.fetch u.pc) = .instr (.l src dst) →
      ∃ t, step s = .next t ∧ StepEffect u t (zeroPage dst) (u.read src))

/-- R151: S copies a zero-page register to the cell at a full address, `dst` itself. -/
def Obligations.StoreCopiesTheRegister : Prop :=
  (∀ w : Word, w.extractLsb' 24 8 = 0x09#8 →
    decode w = .instr (.s (w.extractLsb' 16 8) (w.extractLsb' 0 8 ++ w.extractLsb' 8 8))) ∧
  ∀ (src : Byte) (dst : Addr),
    (∀ s : State, ∃ t, exec (.s src dst) s = .next t ∧ OneCellSet s t dst (s.reg src)) ∧
    (∀ s u : State, ExecutesFrom s u → decode (u.fetch u.pc) = .instr (.s src dst) →
      ∃ t, step s = .next t ∧ StepEffect u t dst (u.reg src))

/-- R152: LI writes its zero-extended immediate to a zero-page register. -/
def Obligations.LoadImmediateZeroExtends : Prop :=
  (∀ w : Word, w.extractLsb' 24 8 = 0x0A#8 →
    decode w = .instr (.li (w.extractLsb' 16 8) (w.extractLsb' 0 8 ++ w.extractLsb' 8 8))) ∧
  ∀ (addr : Byte) (imm : BitVec 16),
    (∀ s : State, ∃ t, exec (.li addr imm) s = .next t ∧
      OneCellSet s t (zeroPage addr) (BitVec.ofNat 32 imm.toNat)) ∧
    (∀ s u : State, ExecutesFrom s u → decode (u.fetch u.pc) = .instr (.li addr imm) →
      ∃ t, step s = .next t ∧ StepEffect u t (zeroPage addr) (BitVec.ofNat 32 imm.toNat))

/-- R170: LP copies a register when another is positive as a signed number (its top bit 0 and not
zero), and otherwise writes no cell: its step then has the effect of rewriting the PC cell with the
PC, which the PC advance cannot tell from no write (R190). -/
def Obligations.LoadIfPositiveCopiesOrNot : Prop :=
  (∀ w : Word, w.extractLsb' 24 8 = 0x0C#8 →
    decode w = .instr (.lp (w.extractLsb' 16 8) (w.extractLsb' 8 8) (w.extractLsb' 0 8))) ∧
  ∀ (cond src dst : Byte),
    (∀ s : State, (s.reg cond).msb = false → s.reg cond ≠ 0x00000000#32 →
      ∃ t, exec (.lp cond src dst) s = .next t ∧ OneCellSet s t (zeroPage dst) (s.reg src)) ∧
    (∀ s : State, ((s.reg cond).msb = true ∨ s.reg cond = 0x00000000#32) →
      exec (.lp cond src dst) s = .next s) ∧
    (∀ s u : State, ExecutesFrom s u → decode (u.fetch u.pc) = .instr (.lp cond src dst) →
      ∃ t, step s = .next t ∧
        ((u.reg cond).msb = false → u.reg cond ≠ 0x00000000#32 →
          StepEffect u t (zeroPage dst) (u.reg src)) ∧
        ((u.reg cond).msb = true ∨ u.reg cond = 0x00000000#32 →
          StepEffect u t Config.pcAddr u.pc))

/-- D1, D2: under the cautious value of `ADD_OVERFLOW`, an ADD whose unsigned sum exceeds 0xFFFFFFFF
and a NEG of 0x80000000 raise ArithmeticOverflow; every other ADD and NEG is as under the default. -/
def Obligations.CautiousOverflowParameterFaults : Prop :=
  (∀ (lhs rhs out : Byte) (s : State),
    (0xFFFFFFFF < (s.reg lhs).toNat + (s.reg rhs).toNat →
      execAddWith .fault lhs rhs out s = .fault .arithmeticOverflow) ∧
    ((s.reg lhs).toNat + (s.reg rhs).toNat ≤ 0xFFFFFFFF →
      execAddWith .fault lhs rhs out s = exec (.add lhs rhs out) s)) ∧
  (∀ (input out pad : Byte) (s : State),
    (s.reg input = 0x80000000#32 →
      execNegWith .fault input out pad s = .fault .arithmeticOverflow) ∧
    (s.reg input ≠ 0x80000000#32 →
      execNegWith .fault input out pad s = exec (.neg input out pad) s))

/-! ### The execution cycle (43_execution_cycle.md) -/

/-- A step runs the decoded instruction: `exec` of it, then the strobe check and the PC advance, both
in mode Running and after the host's Continue (R180 steps 3 to 7, R186). -/
def Obligations.StepRunsTheDecodedInstruction : Prop :=
  ∀ (s u t : State) (i : Instr), ExecutesFrom s u → decode (u.fetch u.pc) = .instr i →
    exec i u = .next t → step s = .next (t.finish u.pc)

/-- R180: the step algorithm of mode Running, step by step. -/
def Obligations.RunningStepAlgorithm : Prop :=
  ∀ s : State, s.mode = .running →
    (s.pc.toNat ≤ 0xFFFF → s.pc.extractLsb' 0 16 ∈ s.bp →
      ∃ t, step s = .next t ∧ t.mode = .debugging ∧ t.mem = s.mem ∧ t.out = s.out ∧
        t.bp = s.bp ∧ t.cmds = s.cmds ∧ t.events = s.events ++ [.brk (s.pc.extractLsb' 0 16)]) ∧
    (0xFFFF < s.pc.toNat → ∃ t, step s = .next t ∧ FaultEffect s t (.outOfBounds s.pc)) ∧
    (s.pc.toNat ≤ 0xFFFF → s.pc.extractLsb' 0 16 ∉ s.bp →
      let w := s.read (s.pc.extractLsb' 0 16)
      let op := w.extractLsb' 24 8
      (op.extractLsb' 0 2 = 0b11#2 →
        ∃ t, step s = .next t ∧ FaultEffect s t (.unsupportedVLE op)) ∧
      (op.extractLsb' 0 2 ≠ 0b11#2 → decode w = .illegal op →
        ∃ t, step s = .next t ∧ FaultEffect s t (.illegalOpcode op)) ∧
      (∀ i, decode w = .instr i →
        ∃ t v, exec i s = .next t ∧ step s = .next v ∧ FinishEffect s.pc t v))

/-- R195: the strobe check of a step that executes an instruction is a level test on WRITING after
the execute part; it emits DATA bits 7:0 and clears WRITING, or does nothing. -/
def Obligations.StrobeCheckTestsTheLevel : Prop :=
  ∀ (s u t : State) (i : Instr), ExecutesFrom s u → decode (u.fetch u.pc) = .instr i →
    exec i u = .next t →
    ∃ v, step s = .next v ∧
      (t.read 0xFFFE#16 ≠ 0x00000000#32 →
        v.out = u.out ++ [(t.read 0xFFFF#16).extractLsb' 0 8] ∧ v.read 0xFFFE#16 = 0x00000000#32) ∧
      (t.read 0xFFFE#16 = 0x00000000#32 →
        v.out = u.out ∧ v.read 0xFFFE#16 = 0x00000000#32) ∧
      v.read 0xFFFF#16 = t.read 0xFFFF#16

/-- R190: the PC advances by one exactly when the PC cell still holds the fetch address after the
execute part; otherwise it is left as written. That the sum does not overflow 32 bits is an inference of
the spec (R190's consequence 5, D5, log 8). -/
def Obligations.PcAdvanceComparesValues : Prop :=
  ∀ (s u t : State) (i : Instr), ExecutesFrom s u → decode (u.fetch u.pc) = .instr i →
    exec i u = .next t →
    ∃ v, step s = .next v ∧
      (t.read 0x0000#16 = u.pc →
        v.read 0x0000#16 = u.pc + 0x00000001#32 ∧ (v.read 0x0000#16).toNat = u.pc.toNat + 1) ∧
      (t.read 0x0000#16 ≠ u.pc → v.read 0x0000#16 = t.read 0x0000#16)

/-- R197: with 'A' in DATA and 1 in WRITING at the strobe check, exactly the byte 0x41 is emitted and
WRITING is 0 after the step; the following executed step emits nothing unless its instruction writes
WRITING. -/
def Obligations.SourceOutputCaseEmitsOneByte : Prop :=
  ∀ (s u t : State) (i : Instr), ExecutesFrom s u → decode (u.fetch u.pc) = .instr i →
    exec i u = .next t → t.data = 0x00000041#32 → t.writing = 0x00000001#32 →
    ∃ v, step s = .next v ∧ v.out = u.out ++ [0x41#8] ∧ v.writing = 0x00000000#32 ∧
      ∀ (u' t' : State) (j : Instr), ExecutesFrom v u' → decode (u'.fetch u'.pc) = .instr j →
        exec j u' = .next t' → t'.writing = u'.writing →
        ∃ v', step v = .next v' ∧ v'.out = v.out

/-- R200: a run ends only at one of the three faults or at the debugger's exit. That no step is refused,
and that a step answers a fault exactly in mode Halted, with its cause, the debugger's exit included, is
the model's reading of R232 (log 4, DEDUCED). -/
def Obligations.RunsEndOnlyByFaultOrExit : Prop :=
  (∀ (s : State), (∀ r, step s ≠ .refused r) ∧ ∀ c, step s = .fault c ↔ s.mode = .halted c) ∧
  ∀ (s t : State) (c : Fault), step s = .next t → t.mode = .halted c →
    (∃ a, c = .outOfBounds a) ∨ (∃ op, c = .unsupportedVLE op) ∨ (∃ op, c = .illegalOpcode op) ∨
    (c = .debuggerExit ∧ s.mode = .debugging ∧ ∃ rest, s.cmds = .exit :: rest)

/-- R192, R193, R194 (inferences of the spec): where the control-transfer idioms go, in a step at
address `a`, the fall-through of a jump to the own address included (R271). -/
def Obligations.ControlTransferIdioms : Prop :=
  ∀ s u : State, ExecutesFrom s u →
    let jumpsTo (target : Word) : Prop :=
      ∃ t, step s = .next t ∧ t.pc = if target = u.pc then u.pc + 0x00000001#32 else target
    (∀ m : BitVec 16, decode (u.fetch u.pc) = .instr (.li 0x00#8 m) →
      jumpsTo (BitVec.ofNat 32 m.toNat)) ∧
    (∀ m : Addr, decode (u.fetch u.pc) = .instr (.l m 0x00#8) → jumpsTo (u.read m)) ∧
    (∀ r : Byte, decode (u.fetch u.pc) = .instr (.s r 0x0000#16) → jumpsTo (u.reg r)) ∧
    (∀ r : Byte, decode (u.fetch u.pc) = .instr (.and r r 0x00#8) → jumpsTo (u.reg r)) ∧
    (∀ r : Byte, decode (u.fetch u.pc) = .instr (.or r r 0x00#8) → jumpsTo (u.reg r)) ∧
    (∀ r : Byte, decode (u.fetch u.pc) = .instr (.add 0x00#8 r 0x00#8) →
      jumpsTo (BitVec.ofNat 32 (u.pc.toNat + (u.reg r).toNat))) ∧
    (∀ c f : Byte, decode (u.fetch u.pc) = .instr (.lp c f 0x00#8) →
      jumpsTo (if 0 < (u.reg c).toInt then u.reg f else u.pc))

/-- R273 (an inference of the spec): an instruction may put a value above 0xFFFF in the PC cell and
still completes; the step after it raises OutOfBounds with that value. -/
def Obligations.BadPcFaultsOneStepLate : Prop :=
  ∀ (s u t : State) (i : Instr), ExecutesFrom s u → decode (u.fetch u.pc) = .instr i →
    step s = .next t → 0xFFFF < t.pc.toNat →
    t.mode = .running ∧ ∃ r, step t = .next r ∧ FaultEffect t r (.outOfBounds t.pc)

/-- R274 (an inference of the spec): a zero word executes as `ADD 0 0 0` and doubles the PC, or moves
it on by one where doubling leaves it as it is. -/
def Obligations.ZeroMemoryDoublesThePc : Prop :=
  ∀ s u : State, ExecutesFrom s u → u.fetch u.pc = 0x00000000#32 →
    ∃ t, step s = .next t ∧ StepEffect u t 0x0000#16 (u.pc + u.pc) ∧
      (u.pc ≠ 0x00000000#32 → t.pc.toNat = 2 * u.pc.toNat) ∧
      (u.pc = 0x00000000#32 → t.pc = 0x00000001#32)

/-- R65 (an inference of the spec): an S that stores an instruction word in the very next cell is
followed by a step that executes that word. -/
def Obligations.StoredWordIsExecutedNext : Prop :=
  ∀ (s u : State) (src : Byte) (i : Instr), ExecutesFrom s u → u.pc.toNat < 0xFFFF →
    cellOf (u.pc + 0x00000001#32) ≠ Config.writingAddr →
    cellOf (u.pc + 0x00000001#32) ∉ u.bp →
    decode (u.fetch u.pc) = .instr (.s src (cellOf (u.pc + 0x00000001#32))) →
    decode (u.reg src) = .instr i →
    ∃ t, step s = .next t ∧ t.pc = u.pc + 0x00000001#32 ∧ t.fetch t.pc = u.reg src ∧
      ∀ v, exec i t = .next v → step t = .next (v.finish t.pc)

/-! ### Faults, breakpoints and the debugger (60_exceptions.md) -/

/-- R222, R223, R224: each fatal fault, its cause and its recorded value, in mode Running and after
Continue; no data access raises OutOfBounds; the loader raises it for an image that does not fit. -/
def Obligations.FatalFaultsByCause : Prop :=
  (∀ s u : State, ExecutesFrom s u →
    let op := (u.read (u.pc.extractLsb' 0 16)).extractLsb' 24 8
    (op.extractLsb' 0 2 = 0b11#2 →
      ∃ t, step s = .next t ∧ FaultEffect u t (.unsupportedVLE op)) ∧
    (op.extractLsb' 0 2 ≠ 0b11#2 →
      op ∉ [0x00#8, 0x01#8, 0x02#8, 0x04#8, 0x05#8, 0x06#8, 0x09#8, 0x0A#8, 0x0C#8] →
      ∃ t, step s = .next t ∧ FaultEffect u t (.illegalOpcode op))) ∧
  (∀ s : State, 0xFFFF < s.pc.toNat →
    (s.mode = .running → ∃ t, step s = .next t ∧ FaultEffect s t (.outOfBounds s.pc)) ∧
    (∀ rest, s.mode = .debugging → s.cmds = .cont :: rest →
      ∃ t, step s = .next t ∧ FaultEffect { s with cmds := rest } t (.outOfBounds s.pc))) ∧
  (∀ (i : Instr) (s : State) (a : Word), exec i s ≠ .fault (.outOfBounds a)) ∧
  (∀ (image : List Word) (bp : List Addr), 32768 < image.length →
    ∃ a, load image bp = .fault (.outOfBounds a))

/-- R231: a step that ends in Halted saves nothing and transfers control nowhere: memory, output and
breakpoints are as they were, and there is one `abort(cause)` event. -/
def Obligations.FaultsArePrecise : Prop :=
  ∀ (s t : State) (c : Fault), step s = .next t → t.mode = .halted c →
    t.mem = s.mem ∧ t.out = s.out ∧ t.bp = s.bp ∧ t.events = s.events ++ [.abort c]

/-- R232: a Halted Machine has no transition of any kind. That a step of it answers its cause as a
fault, the debugger's exit included, which D15 calls the non-fault end, is the model's reading (log 4,
DEDUCED). -/
def Obligations.HaltedIsFinal : Prop :=
  ∀ (s : State) (c : Fault), s.mode = .halted c →
    step s = .fault c ∧ ∀ t, step s ≠ .next t

/-- R181: a breakpoint at the fetch address suspends before the fetch, whatever word is there, and
changes `mode` only; a PC above 0xFFFF matches none and falls through to the fault. -/
def Obligations.BreakpointSuspendsBeforeTheInstruction : Prop :=
  ∀ s : State, s.mode = .running →
    (s.pc.toNat ≤ 0xFFFF → cellOf s.pc ∈ s.bp →
      step s = .next
        { s with mode := .debugging, events := s.events ++ [.brk (cellOf s.pc)] }) ∧
    (0xFFFF < s.pc.toNat → ∃ t, step s = .next t ∧ t.mode = .halted (.outOfBounds s.pc))

/-- R186, R242: Continue runs the suspended instruction without testing the breakpoint again: the
step is the one a Running Machine with no breakpoints takes from the same memory. -/
def Obligations.ContinueSkipsTheBreakpointTest : Prop :=
  ∀ (s t : State) (rest : List DbgCmd), s.mode = .debugging → s.cmds = .cont :: rest →
    step { s with mode := .running, cmds := rest, bp := [] } = .next t →
    step s = .next { t with bp := s.bp }

/-- R243 to R246: what each debugger command but Continue does, a host that has issued none
included (U9): none changes a cell, the PC, the breakpoints or the output. -/
def Obligations.DebuggerCommandsChangeNoCell : Prop :=
  ∀ s : State, s.mode = .debugging →
    (s.cmds = [] → step s = .next s) ∧
    (∀ a rest, s.cmds = .read a :: rest →
      step s = .next { s with cmds := rest, events := s.events ++ [.dbgData (s.read a)] }) ∧
    (∀ rest, s.cmds = .exit :: rest →
      step s = .next
        { s with cmds := rest, mode := .halted .debuggerExit,
                 events := s.events ++ [.abort .debuggerExit] }) ∧
    (∀ rest, s.cmds = .invalid :: rest → step s = .next { s with cmds := rest })

/-! ### Whole-machine rules -/

/-- R27 (an inference of the spec): WRITING is 0 after every step that leaves the Machine Running,
whatever it was before, and once 0 it is 0 at every step boundary. -/
def Obligations.WritingIsClearAtStepBoundaries : Prop :=
  ∀ s t : State, step s = .next t →
    (t.mode = .running → t.writing = 0x00000000#32) ∧
    (s.writing = 0x00000000#32 → t.writing = 0x00000000#32)

/-- R31: no step changes the breakpoint set, only membership in it is ever observed (an inference of
the spec; the list that holds the set is the model's choice, log 13), and after every load it contains
0x8000. -/
def Obligations.BreakpointsAreAFixedSet : Prop :=
  (∀ s t : State, step s = .next t →
    t.bp = s.bp ∧
    ∀ l : List Addr, (∀ a, a ∈ l ↔ a ∈ s.bp) → step { s with bp := l } = .next { t with bp := l }) ∧
  ∀ (image : List Word) (bp : List Addr) (s : State), load image bp = .next s → 0x8000#16 ∈ s.bp

/-- R32: the output is append-only, a step appends at most one byte and only by a strobe check that
finds WRITING nonzero, and no step depends on what has been output. -/
def Obligations.OutputIsAppendOnly : Prop :=
  ∀ s t : State, step s = .next t →
    (t.out = s.out ∨
      ∃ u i v, ExecutesFrom s u ∧ decode (u.fetch u.pc) = .instr i ∧ exec i u = .next v ∧
        v.writing ≠ 0x00000000#32 ∧ t.out = s.out ++ [v.data.extractLsb' 0 8]) ∧
    ∀ o : List Byte, ∃ added, t.out = s.out ++ added ∧
      step { s with out := o } = .next { t with out := o ++ added }

/-- R23, R50, R276: a step changes a cell above 0x00FF, WRITING apart, only by executing an S whose
destination is that cell. -/
def Obligations.OnlyStoreWritesAboveTheZeroPage : Prop :=
  ∀ (s t : State) (a : Addr), step s = .next t → 0x00FF < a.toNat → a ≠ Config.writingAddr →
    t.read a ≠ s.read a →
    ∃ u src, ExecutesFrom s u ∧ decode (u.fetch u.pc) = .instr (.s src a) ∧ t.read a = u.reg src

/-- R23, R276: no instruction but L lets a cell above 0x00FF influence the zero page, or what S
stores. -/
def Obligations.OnlyLoadReadsAboveTheZeroPage : Prop :=
  ∀ (i : Instr) (s s' t t' : State), (∀ f, s.reg f = s'.reg f) → (∀ src dst, i ≠ .l src dst) →
    exec i s = .next t → exec i s' = .next t' →
    (∀ f, t.reg f = t'.reg f) ∧ ∀ src dst, i = .s src dst → t.read dst = t'.read dst

/-- The invariant every step keeps: memory in canonical form with 16-bit addresses only (R20), the
breakpoint set in canonical form and holding 0x8000 (R31, R263). -/
def Obligations.EveryStepKeepsTheInvariant : Prop :=
  ∀ s t : State, s.Inv → step s = .next t → t.Inv

/-- The invariant holds at reset. -/
def Obligations.ResetMeetsTheInvariant : Prop := State.reset.Inv

/-- R247 (an inference of the spec): for a host that continues at every breakpoint, breakpoints are a
stutter: whatever a Machine without breakpoints reaches in `n` steps, the Machine with its
breakpoints and `n` pending Continues reaches in at most `2 * n`, with the same memory, output and
end. -/
def Obligations.BreakpointsAreAStutter : Prop :=
  ∀ (n : Nat) (s t : State), s.mode = .running → runSteps n s.alone = .next t →
    ∃ m t', m ≤ 2 * n ∧ runSteps m { s with cmds := List.replicate n .cont } = .next t' ∧
      t'.mem = t.mem ∧ t'.out = t.out ∧ t'.mode = t.mode

/-! ### Reset and load (10_state.md, 70_reset_and_hazards.md) -/

/-- R36, R262, R263: the state after load, cell by cell, its first step, and the image that does not
fit. That the state meets `State.Inv` is about the model's lists (log 1, log 13, DESIGN CHOICE); the
limit of 32,768 words (R262) and the empty output (R36) are inferences of the spec. -/
def Obligations.LoadGivesTheInitialState : Prop :=
  ∀ (image : List Word) (bp : List Addr),
    (image.length ≤ 32768 →
      ∃ s, load image bp = .next s ∧ s.Inv ∧
        s.pc = 0x00008000#32 ∧
        (∀ i (hi : i < image.length), s.read (BitVec.ofNat 16 (0x8000 + i)) = image[i]) ∧
        (∀ a : Addr, a ≠ 0x0000#16 → a.toNat < 0x8000 ∨ 0x8000 + image.length ≤ a.toNat →
          s.read a = 0x00000000#32) ∧
        s.mode = .running ∧ (∀ a, a ∈ s.bp ↔ a = 0x8000#16 ∨ a ∈ bp) ∧ s.out = [] ∧
        ∃ t, step s = .next t ∧ t.mode = .debugging ∧ t.mem = s.mem ∧ t.out = []) ∧
    (32768 < image.length → ∀ s, load image bp ≠ .next s)

/-- The reset state is the load of an empty image (the model's reading, log 17): every cell 0 but the
PC, mode Running, 0x8000 the one breakpoint, nothing output (R36, R260, R264). -/
def Obligations.ResetIsTheEmptyLoad : Prop :=
  load [] [] = .next State.reset ∧
  (∀ a : Addr, State.reset.read a = if a = 0x0000#16 then 0x00008000#32 else 0x00000000#32) ∧
  State.reset.mode = .running ∧ State.reset.bp = [0x8000#16] ∧ State.reset.out = []

/-- The model's own `withFetchWord` (log 16): from every state, the very next step executes the placed
word at a cell that holds it. -/
def Obligations.PlacedWordIsExecutedNext : Prop :=
  ∀ (s : State) (nbits w : Nat), ∃ u, ExecutesFrom (s.withFetchWord nbits w) u ∧
    u.fetch u.pc = BitVec.ofNat 32 (w % 2 ^ nbits) ∧ u.bp = s.bp ∧ u.out = s.out ∧
    u.cmds = s.cmds ∧ u.events = s.events

/-! ### The assembler (30_encoding.md section 7) -/

/-- R112, R116, R119: a text that assembles gives one word per non-blank line, word `n` being `encode` of
the record of line `n`, and its breakpoints are exactly the addresses of the lines marked `~`, which for
line `n` is `0x8000 + n`. For `n` up to 32,767 that is R112's own; past it, where no loader takes the
image, the address is cut to 16 bits, which is the model's choice (log 25, DESIGN CHOICE). -/
def Obligations.AssemblyIsOneWordPerLine : Prop :=
  ∀ (text : List Char) (is : List Instr) (bp : List Addr), assemble text = .ok (is, bp) →
    ∃ (ls : List AsmLine) (symbols : Symbols),
      parseLines (linesOf text) = .ok ls ∧ symbolsOf 0 [] ls = .ok symbols ∧
      ls.length = (linesOf text).length ∧ (imageOf is).length = (linesOf text).length ∧
      (∀ (n : Nat) l, ls[n]? = some l →
        ∃ i, instrOf symbols l = .ok i ∧ (imageOf is)[n]? = some (encode i)) ∧
      ∀ a, a ∈ bp ↔
        ∃ (n : Nat) (l : AsmLine), ls[n]? = some l ∧ l.brk = true ∧ a = BitVec.ofNat 16 (0x8000 + n)

/-- R111, R114, R116: in a text that assembles, the symbol table is exactly its labels, each with the
address of its own line, before or after the line that uses it; an operand that is a label, with or
without the marker `:`, has that address as its value. -/
def Obligations.LabelsNameTheirLines : Prop :=
  ∀ (text : List Char) (is : List Instr) (bp : List Addr), assemble text = .ok (is, bp) →
    ∃ (ls : List AsmLine) (symbols : Symbols),
      parseLines (linesOf text) = .ok ls ∧ symbolsOf 0 [] ls = .ok symbols ∧
      (∀ name v, symbols.lookup name = some v ↔
        ∃ (n : Nat) (l : AsmLine), ls[n]? = some l ∧ l.label = some name ∧ v = 0x8000 + n) ∧
      ∀ (n : Nat) l name, ls[n]? = some l → l.label = some name → name.head? ≠ some ':' →
        operandValue symbols name = .ok (0x8000 + n) ∧
        operandValue symbols (':' :: name) = .ok (0x8000 + n)

/-- R110, R111, R112: the four forms of a line, with and without a label and a marker. That a name may
hold any characters but a first digit is the model's choice (log 22). -/
def Obligations.LineFormsAreTakenApart : Prop :=
  ∀ (m : Token) (ops : List Token), m ≠ [] →
    (∀ name : Token, name ≠ [] → (∀ c, name.head? = some c → c.isDigit = false) →
      (m.head? ≠ some '~' →
        parseLine ((name ++ [':']) :: m :: ops) = .ok ⟨some name, false, m, ops⟩) ∧
      parseLine ((name ++ [':']) :: ('~' :: m) :: ops) = .ok ⟨some name, true, m, ops⟩) ∧
    (m.getLast? ≠ some ':' →
      (m.head? ≠ some '~' → parseLine (m :: ops) = .ok ⟨none, false, m, ops⟩) ∧
      parseLine (('~' :: m) :: ops) = .ok ⟨none, true, m, ops⟩)

/-- R113, R115, R89: the record of each mnemonic, its operand values in column order (the spec's decision
D12), each cut to its field's low-order bits (general knowledge of the spec), NEG's `pad` 0 (log 20). -/
def Obligations.MnemonicsTakeTheirOperands : Prop :=
  ∀ (symbols : Symbols) (label : Option Token) (brk : Bool) (t1 t2 t3 : Token) (a b c : Nat),
    operandValue symbols t1 = .ok a → operandValue symbols t2 = .ok b →
    operandValue symbols t3 = .ok c →
    let two (m : Token) := instrOf symbols ⟨label, brk, m, [t1, t2]⟩
    let three (m : Token) := instrOf symbols ⟨label, brk, m, [t1, t2, t3]⟩
    three ['A', 'D', 'D'] =
      .ok (.add (BitVec.ofNat 8 a) (BitVec.ofNat 8 b) (BitVec.ofNat 8 c)) ∧
    two ['N', 'E', 'G'] = .ok (.neg (BitVec.ofNat 8 a) (BitVec.ofNat 8 b) 0x00#8) ∧
    three ['A', 'N', 'D'] =
      .ok (.and (BitVec.ofNat 8 a) (BitVec.ofNat 8 b) (BitVec.ofNat 8 c)) ∧
    three ['O', 'R'] = .ok (.or (BitVec.ofNat 8 a) (BitVec.ofNat 8 b) (BitVec.ofNat 8 c)) ∧
    three ['X', 'O', 'R'] =
      .ok (.xor (BitVec.ofNat 8 a) (BitVec.ofNat 8 b) (BitVec.ofNat 8 c)) ∧
    two ['L'] = .ok (.l (BitVec.ofNat 16 a) (BitVec.ofNat 8 b)) ∧
    two ['S'] = .ok (.s (BitVec.ofNat 8 a) (BitVec.ofNat 16 b)) ∧
    two ['L', 'I'] = .ok (.li (BitVec.ofNat 8 a) (BitVec.ofNat 16 b)) ∧
    three ['L', 'P'] = .ok (.lp (BitVec.ofNat 8 a) (BitVec.ofNat 8 b) (BitVec.ofNat 8 c))
end

