-- ==== Sys2Proof/Laws/Assembler.lean ====
section
/-! SUPPORT. What each pass of the assembler does, said once (30_encoding.md R110 to R117). -/

namespace Sys2Proof.Machine

/-- Everything a text that assembles went through (R116). -/
theorem assemble_ok {text : List Char} {is : List Instr} {bp : List Addr}
    (h : assemble text = .ok (is, bp)) :
    ∃ ls symbols, parseLines (linesOf text) = .ok ls ∧ symbolsOf 0 [] ls = .ok symbols ∧
      instrsOf symbols ls = .ok is ∧ bp = breakpointsOf 0 ls := by
  unfold assemble at h
  split at h
  · cases h
  · split at h
    · cases h
    · split at h <;> cases h
      exact ⟨_, _, ‹_›, ‹_›, ‹_›, rfl⟩

/-- Each line is taken apart by itself. -/
theorem parseLines_get {ls : List (List Token)} {ps : List AsmLine} (h : parseLines ls = .ok ps) :
    ps.length = ls.length ∧
      ∀ (n : Nat) p, ps[n]? = some p → ∃ l, ls[n]? = some l ∧ parseLine l = .ok p := by
  induction ls generalizing ps with
  | nil => cases h; simp
  | cons l rest ih =>
    unfold parseLines at h
    split at h
    · cases h
    · split at h <;> cases h
      obtain ⟨hl, hg⟩ := ih ‹_›
      refine ⟨by simp [hl], fun n p hp => ?_⟩
      cases n with
      | zero => cases hp; exact ⟨l, rfl, ‹_›⟩
      | succ n => exact hg n p hp

/-- A label's name is not empty and has no digit first (log 20, log 22). -/
theorem labelName_ok {t name : Token} (h : labelName t = .ok name) :
    name = t ∧ ∃ c rest, name = c :: rest ∧ c.isDigit = false := by
  unfold labelName at h
  split at h
  · cases h
  · split at h <;> cases h
    exact ⟨rfl, _, _, rfl, Bool.eq_false_iff.2 ‹_›⟩

theorem parseBody_label {label : Option Token} {ts : List Token} {p : AsmLine}
    (h : parseBody label ts = .ok p) : p.label = label := by
  unfold parseBody at h
  split at h <;> cases h <;> rfl

/-- The label of a line that is taken apart has a name the grammar of operands looks up (R114). -/
theorem parseLine_label {ts : List Token} {p : AsmLine} {name : Token}
    (h : parseLine ts = .ok p) (hn : p.label = some name) :
    ∃ c rest, name = c :: rest ∧ c.isDigit = false := by
  unfold parseLine at h
  split at h
  · cases h
  · split at h
    · split at h
      · have := (parseBody_label h).symm.trans hn
        cases this
        exact (labelName_ok ‹_›).2
      · cases h
    · have := (parseBody_label h).symm.trans hn
      cases this

/-- Pass 2 makes one record of each line, with the whole symbol table (R116). -/
theorem instrsOf_get {symbols : Symbols} {ls : List AsmLine} {is : List Instr}
    (h : instrsOf symbols ls = .ok is) :
    is.length = ls.length ∧
      ∀ (n : Nat) l, ls[n]? = some l → ∃ i, instrOf symbols l = .ok i ∧ is[n]? = some i := by
  induction ls generalizing is with
  | nil => cases h; simp
  | cons l rest ih =>
    unfold instrsOf at h
    split at h
    · cases h
    · split at h <;> cases h
      obtain ⟨hl, hg⟩ := ih ‹_›
      refine ⟨by simp [hl], fun n k hk => ?_⟩
      cases n with
      | zero => cases hk; exact ⟨_, ‹_›, rfl⟩
      | succ n => exact hg n k hk

/-- The breakpoint list is the addresses of the marked lines (R112). -/
theorem mem_breakpointsOf (ls : List AsmLine) (k : Nat) (a : Addr) :
    a ∈ breakpointsOf k ls ↔
      ∃ (n : Nat) (l : AsmLine), ls[n]? = some l ∧ l.brk = true ∧
        a = BitVec.ofNat 16 (0x8000 + (k + n)) := by
  induction ls generalizing k with
  | nil => simp [breakpointsOf]
  | cons l rest ih =>
    have tail : a ∈ breakpointsOf (k + 1) rest ↔
        ∃ (n : Nat) (p : AsmLine), (l :: rest)[n + 1]? = some p ∧ p.brk = true ∧
          a = BitVec.ofNat 16 (0x8000 + (k + (n + 1))) := by
      rw [ih]; simp only [List.getElem?_cons_succ, Nat.add_comm 1, Nat.add_assoc]
    unfold breakpointsOf
    constructor
    · intro h
      split at h
      · rcases List.mem_cons.1 h with rfl | h
        · exact ⟨0, l, rfl, ‹_›, rfl⟩
        · obtain ⟨n, p, hp⟩ := tail.1 h; exact ⟨n + 1, p, hp⟩
      · obtain ⟨n, p, hp⟩ := tail.1 h; exact ⟨n + 1, p, hp⟩
    · rintro ⟨n, p, hp, hb, ha⟩
      cases n with
      | zero =>
        cases hp
        rw [if_pos hb, ha]
        exact List.mem_cons_self
      | succ n =>
        have := tail.2 ⟨n, p, hp, hb, ha⟩
        split
        · exact List.mem_cons_of_mem _ this
        · exact this

/-- A label not yet defined is not in the table. -/
theorem lookup_eq_none_of_new {acc : Symbols} {name : Token}
    (h : ¬ acc.any (fun e => e.1 == name) = true) : acc.lookup name = none := by
  rw [List.lookup_eq_none_iff]
  intro e he
  simp only [Bool.not_eq_true, List.any_eq_false, beq_iff_eq] at h
  simpa using fun hn => h e he hn.symm

/-- The symbol table is what was there before and the label of each line, at that line's address
(R111). -/
theorem symbolsOf_lookup {ls : List AsmLine} {k : Nat} {acc symbols : Symbols}
    (h : symbolsOf k acc ls = .ok symbols) (name : Token) (v : Nat) :
    symbols.lookup name = some v ↔
      acc.lookup name = some v ∨
        ∃ (n : Nat) (l : AsmLine), ls[n]? = some l ∧ l.label = some name ∧
          v = 0x8000 + (k + n) := by
  induction ls generalizing k acc with
  | nil => cases h; simp
  | cons l rest ih =>
    have shift : (∃ (n : Nat) (p : AsmLine), rest[n]? = some p ∧ p.label = some name ∧
        v = 0x8000 + (k + 1 + n)) ↔
        ∃ (n : Nat) (p : AsmLine), (l :: rest)[n + 1]? = some p ∧ p.label = some name ∧
          v = 0x8000 + (k + (n + 1)) := by
      simp only [List.getElem?_cons_succ, Nat.add_comm 1, Nat.add_assoc]
    have cons : (∃ (n : Nat) (p : AsmLine), (l :: rest)[n]? = some p ∧ p.label = some name ∧
        v = 0x8000 + (k + n)) ↔
        (l.label = some name ∧ v = 0x8000 + k) ∨
          ∃ (n : Nat) (p : AsmLine), (l :: rest)[n + 1]? = some p ∧ p.label = some name ∧
            v = 0x8000 + (k + (n + 1)) := by
      constructor
      · rintro ⟨n, p, hp, hl, hv⟩
        cases n with
        | zero => cases hp; exact .inl ⟨hl, hv⟩
        | succ n => exact .inr ⟨n, p, hp, hl, hv⟩
      · rintro (⟨hl, hv⟩ | ⟨n, p, hp⟩)
        · exact ⟨0, l, rfl, hl, hv⟩
        · exact ⟨n + 1, p, hp⟩
    rw [cons, ← shift]
    unfold symbolsOf at h
    split at h
    · rename_i hl
      rw [ih h]; simp [hl]
    · rename_i other hl
      split at h
      · cases h
      · rename_i hnew
        rw [ih h, hl, List.lookup_append]
        have hnone := lookup_eq_none_of_new hnew
        by_cases hn : name = other
        · subst hn
          simp [hnone, List.lookup, Config.loadBase, eq_comm]
        · have : (name == other) = false := by simpa using hn
          have hn' : ¬ other = name := fun e => hn e.symm
          simp [List.lookup, this, hn']

/-- A name that begins with neither `:` nor a digit is looked up (R114). -/
theorem operandValue_name {symbols : Symbols} {c : Char} {rest : Token} {v : Nat}
    (hc : c ≠ ':') (hd : c.isDigit = false) (h : symbols.lookup (c :: rest) = some v) :
    operandValue symbols (c :: rest) = .ok v := by
  unfold operandValue
  split
  · cases ‹_ :: _ = []›
  · rename_i e; cases e; exact absurd hd (by decide)
  · rename_i e; cases e; exact absurd rfl hc
  · rename_i e; cases e
    rw [if_neg (by simp [hd]), h]

/-- The indirection marker contributes nothing (R114). -/
theorem operandValue_colon (symbols : Symbols) (t : Token) :
    operandValue symbols (':' :: t) = operandValue symbols t := rfl

end Sys2Proof.Machine
end

