-- ==== Sys2Proof/Laws/Codec.lean ====
section
/-! SUPPORT. The byte slices of a packed word, and packing as the inverse of slicing. -/

namespace Sys2Proof

/-- Concatenation with a byte on the right, as a number. -/
theorem toNat_append_byte {n : Nat} (x : BitVec n) (y : Byte) :
    (x ++ y).toNat = x.toNat * 256 + y.toNat := by
  rw [BitVec.toNat_append, Nat.shiftLeft_eq, Nat.mul_comm, ← Nat.two_pow_add_eq_or_of_lt y.isLt]

/-- A packed word as a number, byte 0 the most significant (00_scope.md R7). -/
theorem toNat_packBytes (a b c d : Byte) :
    (packBytes a b c d).toNat = ((a.toNat * 256 + b.toNat) * 256 + c.toNat) * 256 + d.toNat := by
  unfold packBytes
  rw [toNat_append_byte, toNat_append_byte, toNat_append_byte]

theorem toNat_leField (a b : Byte) : (leField a b).toNat = b.toNat * 256 + a.toNat :=
  toNat_append_byte b a

@[simp] theorem byte0_packBytes (a b c d : Byte) : byte0 (packBytes a b c d) = a := by
  apply BitVec.eq_of_toNat_eq
  simp only [byte0, BitVec.extractLsb'_toNat, toNat_packBytes, Nat.shiftRight_eq_div_pow]
  omega

@[simp] theorem byte1_packBytes (a b c d : Byte) : byte1 (packBytes a b c d) = b := by
  apply BitVec.eq_of_toNat_eq
  simp only [byte1, BitVec.extractLsb'_toNat, toNat_packBytes, Nat.shiftRight_eq_div_pow]
  omega

@[simp] theorem byte2_packBytes (a b c d : Byte) : byte2 (packBytes a b c d) = c := by
  apply BitVec.eq_of_toNat_eq
  simp only [byte2, BitVec.extractLsb'_toNat, toNat_packBytes, Nat.shiftRight_eq_div_pow]
  omega

@[simp] theorem byte3_packBytes (a b c d : Byte) : byte3 (packBytes a b c d) = d := by
  apply BitVec.eq_of_toNat_eq
  simp only [byte3, BitVec.extractLsb'_toNat, toNat_packBytes, Nat.shiftRight_eq_div_pow]
  omega

/-- A word is its four bytes (R7). -/
@[simp] theorem packBytes_bytes (w : Word) :
    packBytes (byte0 w) (byte1 w) (byte2 w) (byte3 w) = w := by
  apply BitVec.eq_of_toNat_eq
  simp only [byte0, byte1, byte2, byte3, BitVec.extractLsb'_toNat, toNat_packBytes,
    Nat.shiftRight_eq_div_pow]
  omega

@[simp] theorem loByte_leField (a b : Byte) : loByte (leField a b) = a := by
  apply BitVec.eq_of_toNat_eq
  simp only [loByte, BitVec.extractLsb'_toNat, toNat_leField, Nat.shiftRight_eq_div_pow]
  omega

@[simp] theorem hiByte_leField (a b : Byte) : hiByte (leField a b) = b := by
  apply BitVec.eq_of_toNat_eq
  simp only [hiByte, BitVec.extractLsb'_toNat, toNat_leField, Nat.shiftRight_eq_div_pow]
  omega

/-- A 16-bit field is its two bytes, low byte first (20_memory.md R52). -/
@[simp] theorem leField_bytes (v : BitVec 16) : leField (loByte v) (hiByte v) = v := by
  apply BitVec.eq_of_toNat_eq
  simp only [loByte, hiByte, BitVec.extractLsb'_toNat, toNat_leField, Nat.shiftRight_eq_div_pow]
  omega

end Sys2Proof
end

