-- ==== Sys2Proof/Laws/Memory.lean ====
section
/-! SUPPORT. The laws of one cell read and written, and that memory and the breakpoint set keep their
canonical forms. -/

namespace Sys2Proof.Machine

theorem Memory.readAt_erase (n k : Nat) (m : Memory) :
    Memory.readAt (Memory.erase n m) k = if k = n then Memory.unlisted else Memory.readAt m k := by
  induction m with
  | nil => simp [Memory.erase, Memory.readAt]
  | cons c rest ih =>
    obtain ⟨j, u⟩ := c
    by_cases hj : j = n <;> by_cases hk : k = n <;> by_cases hjk : j = k <;>
      simp_all [Memory.erase, Memory.readAt]

theorem Memory.readAt_insert (n k : Nat) (v : Word) (m : Memory) (hn : ∀ c ∈ m, c.1 ≠ n) :
    Memory.readAt (Memory.insert n v m) k = if k = n then v else Memory.readAt m k := by
  induction m with
  | nil => simp [Memory.insert, Memory.readAt, eq_comm]
  | cons c rest ih =>
    obtain ⟨j, u⟩ := c
    have hj : j ≠ n := hn (j, u) (by simp)
    have ih := ih (fun c hc => hn c (by simp [hc]))
    unfold Memory.insert
    split
    · simp [Memory.readAt, eq_comm]
    · simp only [Memory.readAt, ih]
      by_cases hjk : j = k
      · subst hjk; simp [hj]
      · simp [hjk]

theorem Memory.not_mem_erase (n : Nat) (m : Memory) : ∀ c ∈ Memory.erase n m, c.1 ≠ n := by
  induction m with
  | nil => simp [Memory.erase]
  | cons c rest ih =>
    obtain ⟨j, u⟩ := c
    unfold Memory.erase
    split
    · exact ih
    · rintro c (_ | ⟨_, hc⟩)
      · assumption
      · exact ih c hc

/-- A read after a write gives the value written at the same cell, and the old value at every other
(20_memory.md R58, R62). It holds of every list, canonical or not. -/
theorem Memory.read_write (m : Memory) (a b : Addr) (v : Word) :
    (m.write a v).read b = if b = a then v else m.read b := by
  unfold Memory.write Memory.read
  have hab : b.toNat = a.toNat ↔ b = a := BitVec.toNat_inj
  split
  · subst_vars; simp [Memory.readAt_erase, hab]
  · rw [Memory.readAt_insert _ _ _ _ (Memory.not_mem_erase _ _),
      Memory.readAt_erase]
    by_cases h : b = a <;> simp [h, hab]

/-! ### The canonical form -/

theorem Memory.wfFrom_mono {lo lo' : Nat} {m : Memory} (h : Memory.wfFrom lo m = true)
    (hl : lo' ≤ lo) : Memory.wfFrom lo' m = true := by
  cases m with
  | nil => rfl
  | cons c rest =>
    obtain ⟨j, u⟩ := c
    simp only [Memory.wfFrom, Bool.and_eq_true, decide_eq_true_eq] at h ⊢
    exact ⟨⟨⟨by omega, h.1.1.2⟩, h.1.2⟩, h.2⟩

theorem Memory.wfFrom_erase {lo : Nat} {m : Memory} (n : Nat) (h : Memory.wfFrom lo m = true) :
    Memory.wfFrom lo (Memory.erase n m) = true := by
  induction m generalizing lo with
  | nil => rfl
  | cons c rest ih =>
    obtain ⟨j, u⟩ := c
    simp only [Memory.wfFrom, Bool.and_eq_true, decide_eq_true_eq] at h
    unfold Memory.erase
    split
    · exact Memory.wfFrom_mono (ih h.2) (by omega)
    · simp only [Memory.wfFrom, Bool.and_eq_true, decide_eq_true_eq]
      exact ⟨h.1, ih h.2⟩

theorem Memory.wfFrom_insert {lo n : Nat} {v : Word} {m : Memory} (h : Memory.wfFrom lo m = true)
    (hl : lo ≤ n) (hn : n < Config.memWords) (hv : v ≠ Memory.unlisted)
    (hm : ∀ c ∈ m, c.1 ≠ n) : Memory.wfFrom lo (Memory.insert n v m) = true := by
  induction m generalizing lo with
  | nil => simp [Memory.insert, Memory.wfFrom, hl, hn, hv]
  | cons c rest ih =>
    obtain ⟨j, u⟩ := c
    have hj : j ≠ n := hm (j, u) (by simp)
    simp only [Memory.wfFrom, Bool.and_eq_true, decide_eq_true_eq] at h
    unfold Memory.insert
    split
    · rename_i hlt
      simp only [Memory.wfFrom, Bool.and_eq_true, decide_eq_true_eq]
      exact ⟨⟨⟨hl, hn⟩, hv⟩, ⟨⟨by omega, h.1.1.2⟩, h.1.2⟩, h.2⟩
    · rename_i hlt
      simp only [Memory.wfFrom, Bool.and_eq_true, decide_eq_true_eq]
      exact ⟨h.1, ih h.2 (by omega) (fun c hc => hm c (by simp [hc]))⟩

/-- A write keeps memory in its canonical form. -/
theorem Memory.wf_write {m : Memory} (a : Addr) (v : Word) (h : m.wf = true) :
    (m.write a v).wf = true := by
  unfold Memory.write Memory.wf
  split
  · exact Memory.wfFrom_erase _ h
  · exact Memory.wfFrom_insert (Memory.wfFrom_erase _ h) (Nat.zero_le _) a.isLt ‹_›
      (Memory.not_mem_erase _ _)

/-- Storing an image keeps memory in its canonical form. -/
theorem wf_storeImage (image : List Word) :
    ∀ {m : Memory} (n : Nat), m.wf = true → (storeImage m n image).wf = true := by
  induction image with
  | nil => exact fun _ h => h
  | cons w rest ih => exact fun n h => ih (n + 1) (Memory.wf_write _ _ h)

/-- An address the image does not reach reads as before. -/
theorem read_storeImage_outside (image : List Word) :
    ∀ (m : Memory) (n : Nat) (a : Addr), n + image.length ≤ 65536 →
      a.toNat < n ∨ n + image.length ≤ a.toNat → (storeImage m n image).read a = m.read a := by
  induction image with
  | nil => exact fun _ _ _ _ _ => rfl
  | cons w rest ih =>
    intro m n a hn ha
    simp only [List.length_cons] at hn ha
    have hne : a ≠ BitVec.ofNat 16 n := by
      intro h; subst h; simp only [BitVec.toNat_ofNat] at ha; omega
    rw [storeImage, ih _ _ _ (by omega) (by omega), Memory.read_write, if_neg hne]

/-- Word `i` of an image stored at `n` reads back at `n + i` (R262). -/
theorem read_storeImage_inside (image : List Word) :
    ∀ (m : Memory) (n i : Nat) (hi : i < image.length), n + image.length ≤ 65536 →
      (storeImage m n image).read (BitVec.ofNat 16 (n + i)) = image[i] := by
  induction image with
  | nil => exact fun _ _ _ hi => absurd hi (by simp)
  | cons w rest ih =>
    intro m n i hi hn
    simp only [List.length_cons] at hi hn
    cases i with
    | zero =>
      rw [storeImage, read_storeImage_outside _ _ _ _ (by omega)
        (by simp only [BitVec.toNat_ofNat]; omega), Memory.read_write]
      simp
    | succ i =>
      have := ih (m.write (BitVec.ofNat 16 n) w) (n + 1) i (by omega) (by omega)
      rw [storeImage, show n + (i + 1) = n + 1 + i by omega, this]
      simp

/-! ### The breakpoint set -/

theorem bpWfFrom_mono {lo lo' : Nat} {l : List Addr} (h : bpWfFrom lo l = true) (hl : lo' ≤ lo) :
    bpWfFrom lo' l = true := by
  cases l with
  | nil => rfl
  | cons b rest =>
    simp only [bpWfFrom, Bool.and_eq_true, decide_eq_true_eq] at h ⊢
    exact ⟨by omega, h.2⟩

theorem bpWfFrom_insert {lo : Nat} {a : Addr} {l : List Addr} (h : bpWfFrom lo l = true)
    (hl : lo ≤ a.toNat) : bpWfFrom lo (bpInsert a l) = true := by
  induction l generalizing lo with
  | nil => simp [bpInsert, bpWfFrom, hl]
  | cons b rest ih =>
    simp only [bpWfFrom, Bool.and_eq_true, decide_eq_true_eq] at h
    unfold bpInsert
    split
    · simp only [bpWfFrom, Bool.and_eq_true, decide_eq_true_eq]
      exact ⟨hl, by omega, h.2⟩
    · split
      · simp only [bpWfFrom, Bool.and_eq_true, decide_eq_true_eq]
        exact h
      · rename_i hlt hne
        have : b.toNat ≠ a.toNat := fun e => hne (BitVec.eq_of_toNat_eq e.symm)
        simp only [bpWfFrom, Bool.and_eq_true, decide_eq_true_eq]
        exact ⟨h.1, ih h.2 (by omega)⟩

theorem mem_bpInsert (a c : Addr) (l : List Addr) : c ∈ bpInsert a l ↔ c = a ∨ c ∈ l := by
  induction l with
  | nil => simp [bpInsert]
  | cons b rest ih =>
    unfold bpInsert
    split
    · simp
    · split
      · subst_vars; simp
      · simp [ih]; tauto

/-- The loader's breakpoint set is in canonical form. -/
theorem bpWf_bpOf (bp : List Addr) : bpWf (bpOf bp) = true := by
  induction bp with
  | nil => rfl
  | cons a rest ih => exact bpWfFrom_insert ih (Nat.zero_le _)

/-- Its members are the host's addresses and 0x8000 (R263). -/
theorem mem_bpOf (bp : List Addr) (a : Addr) : a ∈ bpOf bp ↔ a = Config.loadBase ∨ a ∈ bp := by
  induction bp with
  | nil => simp [bpOf]
  | cons b rest ih =>
    have h : bpOf (b :: rest) = bpInsert b (bpOf rest) := rfl
    rw [h, mem_bpInsert, ih]; simp; tauto

end Sys2Proof.Machine
end

