-- ==== Sys2Proof/Laws/State.lean ====
section
/-! SUPPORT. One lemma per field per update of State, each true by rfl, and what a cell reads as
after each update, so that no later proof unfolds a record update. -/

namespace Sys2Proof.Machine

variable (s : State)

@[simp] theorem State.write_mode (a : Addr) (v : Word) : (s.write a v).mode = s.mode := rfl
@[simp] theorem State.write_bp (a : Addr) (v : Word) : (s.write a v).bp = s.bp := rfl
@[simp] theorem State.write_out (a : Addr) (v : Word) : (s.write a v).out = s.out := rfl
@[simp] theorem State.write_cmds (a : Addr) (v : Word) : (s.write a v).cmds = s.cmds := rfl
@[simp] theorem State.write_events (a : Addr) (v : Word) : (s.write a v).events = s.events := rfl
@[simp] theorem State.write_mem (a : Addr) (v : Word) : (s.write a v).mem = s.mem.write a v := rfl

@[simp] theorem State.emit_mem (b : Byte) : (s.emit b).mem = s.mem := rfl
@[simp] theorem State.emit_mode (b : Byte) : (s.emit b).mode = s.mode := rfl
@[simp] theorem State.emit_bp (b : Byte) : (s.emit b).bp = s.bp := rfl
@[simp] theorem State.emit_out (b : Byte) : (s.emit b).out = s.out ++ [b] := rfl
@[simp] theorem State.emit_cmds (b : Byte) : (s.emit b).cmds = s.cmds := rfl
@[simp] theorem State.emit_events (b : Byte) : (s.emit b).events = s.events := rfl

@[simp] theorem State.raise_mem (c : Fault) : (s.raise c).mem = s.mem := rfl
@[simp] theorem State.raise_mode (c : Fault) : (s.raise c).mode = .halted c := rfl
@[simp] theorem State.raise_bp (c : Fault) : (s.raise c).bp = s.bp := rfl
@[simp] theorem State.raise_out (c : Fault) : (s.raise c).out = s.out := rfl
@[simp] theorem State.raise_cmds (c : Fault) : (s.raise c).cmds = s.cmds := rfl
@[simp] theorem State.raise_events (c : Fault) :
    (s.raise c).events = s.events ++ [.abort c] := rfl

@[simp] theorem State.enterDebugging_mem : s.enterDebugging.mem = s.mem := rfl
@[simp] theorem State.enterDebugging_mode : s.enterDebugging.mode = .debugging := rfl
@[simp] theorem State.enterDebugging_bp : s.enterDebugging.bp = s.bp := rfl
@[simp] theorem State.enterDebugging_out : s.enterDebugging.out = s.out := rfl
@[simp] theorem State.enterDebugging_cmds : s.enterDebugging.cmds = s.cmds := rfl
@[simp] theorem State.enterDebugging_events :
    s.enterDebugging.events = s.events ++ [.brk (cellOf s.pc)] := rfl

@[simp] theorem State.takeCmd_mem (r : List DbgCmd) : (s.takeCmd r).mem = s.mem := rfl
@[simp] theorem State.takeCmd_mode (r : List DbgCmd) : (s.takeCmd r).mode = s.mode := rfl
@[simp] theorem State.takeCmd_bp (r : List DbgCmd) : (s.takeCmd r).bp = s.bp := rfl
@[simp] theorem State.takeCmd_out (r : List DbgCmd) : (s.takeCmd r).out = s.out := rfl
@[simp] theorem State.takeCmd_cmds (r : List DbgCmd) : (s.takeCmd r).cmds = r := rfl
@[simp] theorem State.takeCmd_events (r : List DbgCmd) : (s.takeCmd r).events = s.events := rfl

@[simp] theorem State.resume_mem : s.resume.mem = s.mem := rfl
@[simp] theorem State.resume_mode : s.resume.mode = .running := rfl
@[simp] theorem State.resume_bp : s.resume.bp = s.bp := rfl
@[simp] theorem State.resume_out : s.resume.out = s.out := rfl
@[simp] theorem State.resume_cmds : s.resume.cmds = s.cmds := rfl
@[simp] theorem State.resume_events : s.resume.events = s.events := rfl

@[simp] theorem State.answerRead_mem (a : Addr) : (s.answerRead a).mem = s.mem := rfl
@[simp] theorem State.answerRead_mode (a : Addr) : (s.answerRead a).mode = s.mode := rfl
@[simp] theorem State.answerRead_bp (a : Addr) : (s.answerRead a).bp = s.bp := rfl
@[simp] theorem State.answerRead_out (a : Addr) : (s.answerRead a).out = s.out := rfl
@[simp] theorem State.answerRead_cmds (a : Addr) : (s.answerRead a).cmds = s.cmds := rfl
@[simp] theorem State.answerRead_events (a : Addr) :
    (s.answerRead a).events = s.events ++ [.dbgData (s.read a)] := rfl

/-! ### What a cell reads as -/

/-- A cell after a write (R58, R62). -/
theorem State.read_write (a b : Addr) (v : Word) :
    (s.write a v).read b = if b = a then v else s.read b :=
  Memory.read_write s.mem a b v

@[simp] theorem State.read_write_self (a : Addr) (v : Word) : (s.write a v).read a = v := by
  simp [State.read_write]

theorem State.read_write_other {a b : Addr} (v : Word) (h : b ≠ a) :
    (s.write a v).read b = s.read b := by
  simp [State.read_write, h]

@[simp] theorem State.read_emit (a : Addr) (b : Byte) : (s.emit b).read a = s.read a := rfl
@[simp] theorem State.read_raise (a : Addr) (c : Fault) : (s.raise c).read a = s.read a := rfl
@[simp] theorem State.read_enterDebugging (a : Addr) : s.enterDebugging.read a = s.read a := rfl
@[simp] theorem State.read_takeCmd (a : Addr) (r : List DbgCmd) :
    (s.takeCmd r).read a = s.read a := rfl
@[simp] theorem State.read_resume (a : Addr) : s.resume.read a = s.read a := rfl
@[simp] theorem State.read_answerRead (a b : Addr) : (s.answerRead b).read a = s.read a := rfl

/-- Reads depend on memory alone. -/
theorem State.read_congr {s t : State} (h : t.mem = s.mem) (a : Addr) : t.read a = s.read a := by
  unfold State.read; rw [h]

/-- A zero-page index names a cell below 0x0100 (R84). -/
theorem zeroPage_toNat (f : Byte) : (zeroPage f).toNat = f.toNat := by
  have := f.isLt
  simp only [zeroPage, BitVec.toNat_setWidth]; omega

theorem zeroPage_lt (f : Byte) : (zeroPage f).toNat < 256 := by
  rw [zeroPage_toNat]; exact f.isLt

theorem zeroPage_inj {f g : Byte} (h : zeroPage f = zeroPage g) : f = g := by
  apply BitVec.eq_of_toNat_eq
  rw [← zeroPage_toNat, ← zeroPage_toNat, h]

/-- No zero-page register is WRITING or DATA (20_memory.md R50). -/
theorem zeroPage_ne_writing (f : Byte) : Config.writingAddr ≠ zeroPage f := by
  intro h
  have := zeroPage_lt f
  rw [← h] at this
  exact absurd this (by decide)

theorem zeroPage_ne_data (f : Byte) : Config.dataAddr ≠ zeroPage f := by
  intro h
  have := zeroPage_lt f
  rw [← h] at this
  exact absurd this (by decide)

end Sys2Proof.Machine
end

