-- ==== Sys2Proof/Laws/Cycle.lean ====
section
/-! SUPPORT. Said once: what the strobe check, the PC advance, the execute part, `ExecuteAt` and a
step can do. Later proofs cite these and unfold none of them. -/

namespace Sys2Proof.Machine

variable (s : State)

/-! ### Steps 6 and 7 -/

@[simp] theorem State.strobe_mode : s.strobe.mode = s.mode := by unfold State.strobe; split <;> rfl
@[simp] theorem State.strobe_bp : s.strobe.bp = s.bp := by unfold State.strobe; split <;> rfl
@[simp] theorem State.strobe_cmds : s.strobe.cmds = s.cmds := by unfold State.strobe; split <;> rfl
@[simp] theorem State.strobe_events : s.strobe.events = s.events := by
  unfold State.strobe; split <;> rfl

/-- The output after the strobe check: one byte more exactly when WRITING was nonzero (R195). -/
theorem State.strobe_out : s.strobe.out =
    if s.writing = 0#32 then s.out else s.out ++ [outputByte s.data] := by
  unfold State.strobe; split <;> simp

/-- A cell after the strobe check: WRITING is 0, every other as before (R195). -/
theorem State.read_strobe (a : Addr) :
    s.strobe.read a = if a = Config.writingAddr then 0#32 else s.read a := by
  unfold State.strobe
  split
  · rename_i h
    by_cases ha : a = Config.writingAddr
    · subst ha; simpa [State.writing] using h
    · simp [ha]
  · by_cases ha : a = Config.writingAddr <;> simp [State.read_write, ha]

@[simp] theorem State.strobe_pc : s.strobe.pc = s.pc := by
  unfold State.pc; rw [State.read_strobe, if_neg (by decide)]

@[simp] theorem State.advancePc_mode (a : Word) : (s.advancePc a).mode = s.mode := by
  unfold State.advancePc; split <;> rfl
@[simp] theorem State.advancePc_bp (a : Word) : (s.advancePc a).bp = s.bp := by
  unfold State.advancePc; split <;> rfl
@[simp] theorem State.advancePc_out (a : Word) : (s.advancePc a).out = s.out := by
  unfold State.advancePc; split <;> rfl
@[simp] theorem State.advancePc_cmds (a : Word) : (s.advancePc a).cmds = s.cmds := by
  unfold State.advancePc; split <;> rfl
@[simp] theorem State.advancePc_events (a : Word) : (s.advancePc a).events = s.events := by
  unfold State.advancePc; split <;> rfl

/-- The PC after the advance (R190). -/
theorem State.advancePc_pc (a : Word) :
    (s.advancePc a).pc = if s.pc = a then a + 1#32 else s.pc := by
  unfold State.advancePc
  split
  · simp [State.pc, State.setPc]
  · rfl

/-- Every other cell after the advance. -/
theorem State.read_advancePc {b : Addr} (a : Word) (h : b ≠ Config.pcAddr) :
    (s.advancePc a).read b = s.read b := by
  unfold State.advancePc
  split
  · exact State.read_write_other _ _ h
  · rfl

@[simp] theorem State.finish_mode (a : Word) : (s.finish a).mode = s.mode := by simp [State.finish]
@[simp] theorem State.finish_bp (a : Word) : (s.finish a).bp = s.bp := by simp [State.finish]
@[simp] theorem State.finish_cmds (a : Word) : (s.finish a).cmds = s.cmds := by simp [State.finish]
@[simp] theorem State.finish_events (a : Word) : (s.finish a).events = s.events := by
  simp [State.finish]

theorem State.finish_out (a : Word) : (s.finish a).out =
    if s.writing = 0#32 then s.out else s.out ++ [outputByte s.data] := by
  simp [State.finish, State.strobe_out]

theorem State.finish_pc (a : Word) : (s.finish a).pc = if s.pc = a then a + 1#32 else s.pc := by
  simp [State.finish, State.advancePc_pc]

@[simp] theorem State.finish_writing (a : Word) : (s.finish a).writing = 0#32 := by
  unfold State.writing State.finish
  rw [State.read_advancePc _ _ (by decide), State.read_strobe, if_pos rfl]

/-- Every cell but the PC and WRITING after steps 6 and 7. -/
theorem State.read_finish {b : Addr} (a : Word) (hp : b ≠ Config.pcAddr)
    (hw : b ≠ Config.writingAddr) : (s.finish a).read b = s.read b := by
  unfold State.finish
  rw [State.read_advancePc _ _ hp, State.read_strobe, if_neg hw]

/-- Steps 6 and 7 keep memory canonical. -/
theorem State.finish_wf (a : Word) (h : s.mem.wf = true) : (s.finish a).mem.wf = true := by
  have hs : s.strobe.mem.wf = true := by
    unfold State.strobe
    split
    · exact h
    · rw [State.write_mem, State.emit_mem]; exact Memory.wf_write _ _ h
  unfold State.finish State.advancePc
  split
  · exact Memory.wf_write _ _ hs
  · exact hs

/-! ### The execute part -/

/-- The execute part writes nothing, or one cell; above the zero page only S writes (R23, R50). -/
theorem exec_cases {i : Instr} {s t : State} (h : exec i s = .next t) :
    t = s ∨ ∃ a v, t = s.write a v ∧ (a.toNat < 256 ∨ ∃ src, i = .s src a) := by
  cases i with
  | add l r o => cases h; exact .inr ⟨_, _, rfl, .inl (zeroPage_lt o)⟩
  | neg n o p => cases h; exact .inr ⟨_, _, rfl, .inl (zeroPage_lt o)⟩
  | and l r o => cases h; exact .inr ⟨_, _, rfl, .inl (zeroPage_lt o)⟩
  | or l r o => cases h; exact .inr ⟨_, _, rfl, .inl (zeroPage_lt o)⟩
  | xor l r o => cases h; exact .inr ⟨_, _, rfl, .inl (zeroPage_lt o)⟩
  | l a d => cases h; exact .inr ⟨_, _, rfl, .inl (zeroPage_lt d)⟩
  | s a d => cases h; exact .inr ⟨_, _, rfl, .inr ⟨a, rfl⟩⟩
  | li d m => cases h; exact .inr ⟨_, _, rfl, .inl (zeroPage_lt d)⟩
  | lp c a d =>
    simp only [exec, execLp] at h
    split at h <;> cases h
    · exact .inr ⟨_, _, rfl, .inl (zeroPage_lt d)⟩
    · exact .inl rfl

/-- What lies beside memory is no business of the execute part (R20, R25). -/
theorem exec_beside {i : Instr} {s t : State} (h : exec i s = .next t) : SameBesideMemory s t := by
  obtain rfl | ⟨a, v, rfl, -⟩ := exec_cases h <;> exact ⟨rfl, rfl, rfl, rfl, rfl⟩

theorem exec_wf {i : Instr} {s t : State} (h : exec i s = .next t) (hs : s.mem.wf = true) :
    t.mem.wf = true := by
  obtain rfl | ⟨a, v, rfl, -⟩ := exec_cases h
  · exact hs
  · exact Memory.wf_write _ _ hs

/-! ### ExecuteAt and the step -/

theorem inRange_iff (a : Word) : inRange a = true ↔ a.toNat ≤ 0xFFFF := by
  rw [inRange, decide_eq_true_iff]; exact Nat.lt_succ_iff

/-- Step 2's test as R181 words it. -/
theorem State.atBreakpoint_iff (s : State) :
    s.atBreakpoint = true ↔ s.pc.toNat ≤ 0xFFFF ∧ cellOf s.pc ∈ s.bp := by
  simp only [State.atBreakpoint, Bool.and_eq_true, inRange_iff, List.contains_iff_mem]

/-- What `ExecuteAt` can do: raise a fault and change nothing else, or run the decoded instruction
and then steps 6 and 7 (R180, R185). -/
theorem executeAt_cases {a : Word} {s u : State} (h : executeAt a s = .next u) :
    (∃ c, u = s.raise c) ∨
      ∃ i t, inRange a = true ∧ decode (s.fetch a) = .instr i ∧ exec i s = .next t ∧
        u = t.finish a := by
  unfold executeAt at h
  split at h
  · split at h
    · cases h; exact .inl ⟨_, rfl⟩
    · cases h; exact .inl ⟨_, rfl⟩
    · rename_i hr _ i hi
      unfold runInstr at h
      split at h
      · cases h; exact .inr ⟨i, _, hr, hi, ‹_›, rfl⟩
      · cases h; exact .inl ⟨_, rfl⟩
      · cases h
  · cases h; exact .inl ⟨_, rfl⟩

/-- What a step can do (R180, R240 to R245). -/
theorem step_cases {s u : State} (h : step s = .next u) :
    (s.mode = .running ∧ s.atBreakpoint = true ∧ u = s.enterDebugging) ∨
    (s.mode = .running ∧ s.atBreakpoint = false ∧ executeAt s.pc s = .next u) ∨
    (s.mode = .debugging ∧ s.cmds = [] ∧ u = s) ∨
    (∃ r, s.mode = .debugging ∧ s.cmds = .cont :: r ∧
      executeAt s.pc (s.takeCmd r).resume = .next u) ∨
    (∃ a r, s.mode = .debugging ∧ s.cmds = .read a :: r ∧ u = (s.takeCmd r).answerRead a) ∨
    (∃ r, s.mode = .debugging ∧ s.cmds = .exit :: r ∧ u = (s.takeCmd r).raise .debuggerExit) ∨
    (∃ r, s.mode = .debugging ∧ s.cmds = .invalid :: r ∧ u = s.takeCmd r) := by
  unfold step at h
  split at h
  · unfold stepRunning at h
    split at h
    · cases h; exact .inl ⟨‹_›, ‹_›, rfl⟩
    · rename_i hb
      exact .inr (.inl ⟨‹_›, (Bool.not_eq_true _).mp hb, h⟩)
  · unfold stepDebugging at h
    split at h
    · cases h; exact .inr (.inr (.inl ⟨‹_›, ‹_›, rfl⟩))
    · exact .inr (.inr (.inr (.inl ⟨_, ‹_›, ‹_›, h⟩)))
    · cases h; exact .inr (.inr (.inr (.inr (.inl ⟨_, _, ‹_›, ‹_›, rfl⟩))))
    · cases h; exact .inr (.inr (.inr (.inr (.inr (.inl ⟨_, ‹_›, ‹_›, rfl⟩)))))
    · cases h; exact .inr (.inr (.inr (.inr (.inr (.inr ⟨_, ‹_›, ‹_›, rfl⟩)))))
  · cases h

end Sys2Proof.Machine
end

