-- ==== Sys2Proof/Laws/PerInstr.lean ====
section
/-! SUPPORT. The per-instruction family OpcodeByte: an encoded instruction carries its own kind's
opcode in byte 0, and that opcode is outside the multi-word class (30_encoding.md R80, R85, R91). -/

namespace Sys2Proof.Laws.OpcodeByte

/-- The word of `i` begins with the opcode of `i`'s kind, and its length class is one word. -/
def Statement (i : Instr) : Prop :=
  byte0 (encode i) = i.kind.opcode ∧ isVle (byte0 (encode i)) = false

theorem add (lhs rhs out : Byte) : Statement (.add lhs rhs out) := by
  simp [Statement, encode, Instr.kind, Kind.opcode, isVle]

theorem neg (input out pad : Byte) : Statement (.neg input out pad) := by
  simp [Statement, encode, Instr.kind, Kind.opcode, isVle]

theorem and (lhs rhs out : Byte) : Statement (.and lhs rhs out) := by
  simp [Statement, encode, Instr.kind, Kind.opcode, isVle]

theorem or (lhs rhs out : Byte) : Statement (.or lhs rhs out) := by
  simp [Statement, encode, Instr.kind, Kind.opcode, isVle]

theorem xor (lhs rhs out : Byte) : Statement (.xor lhs rhs out) := by
  simp [Statement, encode, Instr.kind, Kind.opcode, isVle]

theorem l (src : Addr) (dst : Byte) : Statement (.l src dst) := by
  simp [Statement, encode, Instr.kind, Kind.opcode, isVle]

theorem s (src : Byte) (dst : Addr) : Statement (.s src dst) := by
  simp [Statement, encode, Instr.kind, Kind.opcode, isVle]

theorem li (addr : Byte) (imm : BitVec 16) : Statement (.li addr imm) := by
  simp [Statement, encode, Instr.kind, Kind.opcode, isVle]

theorem lp (cond src dst : Byte) : Statement (.lp cond src dst) := by
  simp [Statement, encode, Instr.kind, Kind.opcode, isVle]

end Sys2Proof.Laws.OpcodeByte
end

