-- ==== Sys2Proof/Tests/Slice0.lean ====
section
/-! SUPPORT. The model's own tests. Expected results are the worked values of spec/: 30_encoding.md
R95 and 95_test_vectors.md, whose section each group names. Then, for every statement with
hypotheses, a witness that meets them, each clause at a boundary of its range. -/

namespace Sys2Proof.Tests

open Sys2Proof Sys2Proof.Machine

/-- A Machine as the vectors' conventions have it: Running, no breakpoint, all memory zero but the
cells listed and the PC. -/
def machineAt (pc : Word) (cells : List (Addr × Word)) : State :=
  (cells.foldl (fun (s : State) c => s.write c.1 c.2) { State.reset with bp := [] }).setPc pc

/-- The vectors' usual start: the word at 0x8000, some registers and cells set. -/
def start (w : Word) (cells : List (Addr × Word)) : State :=
  machineAt 0x00008000#32 ((0x8000#16, w) :: cells)

/-- What one step leaves in a cell, beside the PC, WRITING and the output. -/
def oneStep (s : State) (a : Addr) : Option (Word × Word × Word × List Byte) :=
  match step s with
  | .next t => some (t.read a, t.pc, t.writing, t.out)
  | .fault _ => none
  | .refused _ => none

/-- The mode a step leaves. -/
def modeAfter (s : State) : Option Mode :=
  match step s with
  | .next t => some t.mode
  | .fault _ => none
  | .refused _ => none

/-- The state a step leaves. -/
def after (s : State) : State :=
  match step s with
  | .next t => t
  | .fault _ => s
  | .refused _ => s

/-! ### Well-formedness: what each check refuses (R90, R262) -/

theorem test_image_too_long_refused : imageFits (List.replicate 32769 0x00000000#32) = false := by
  unfold imageFits; rw [List.length_replicate]; decide

theorem test_image_over_io_not_launchable :
    imageLaunchable (List.replicate 32767 0x00000000#32) = false := by
  unfold imageLaunchable; rw [List.length_replicate]; decide

theorem test_every_record_well_formed :
    (Instr.neg 0xFF#8 0xFF#8 0xAB#8).wellFormed = true ∧
      (Instr.s 0xFF#8 0xFFFF#16).wellFormed = true := by decide

/-! ### The codec (95_test_vectors.md 2.1) -/

theorem test_decode_add : decode 0b00000000_00010000_00010001_00010010#32 =
    .instr (.add 0x10#8 0x11#8 0x12#8) := by decide
theorem test_decode_neg_pad : decode 0b00000001_00010000_00010001_10101011#32 =
    .instr (.neg 0x10#8 0x11#8 0xAB#8) := by decide
theorem test_decode_and : decode 0b00000010_00100000_00100001_00100010#32 =
    .instr (.and 0x20#8 0x21#8 0x22#8) := by decide
theorem test_decode_or : decode 0b00000100_00100000_00100001_00100010#32 =
    .instr (.or 0x20#8 0x21#8 0x22#8) := by decide
theorem test_decode_xor : decode 0b00000101_00100000_00100001_00100010#32 =
    .instr (.xor 0x20#8 0x21#8 0x22#8) := by decide
theorem test_decode_l : decode 0b00000110_11111111_00000000_00000001#32 =
    .instr (.l 0x00FF#16 0x01#8) := by decide
theorem test_decode_s : decode 0b00001001_00000001_00000000_11111111#32 =
    .instr (.s 0x01#8 0xFF00#16) := by decide
theorem test_decode_li : decode 0b00001010_00010000_00110100_00010010#32 =
    .instr (.li 0x10#8 0x1234#16) := by decide
theorem test_decode_lp : decode 0b00001100_00010000_00010001_00000000#32 =
    .instr (.lp 0x10#8 0x11#8 0x00#8) := by decide

theorem test_decode_not_instructions :
    decode 0x07123456#32 = .unsupported 0x07#8 ∧ decode 0xFFFFFFFF#32 = .unsupported 0xFF#8 ∧
    decode 0x08000000#32 = .illegal 0x08#8 ∧ decode 0xFE000000#32 = .illegal 0xFE#8 := by decide

theorem test_decode_as :
    decodeAs .add 0x02101112#32 = .error ⟨0x02101112#32, .add⟩ ∧
    decodeAs .l 0x0910FEFF#32 = .error ⟨0x0910FEFF#32, .l⟩ := by decide

theorem test_decode_table_word :
    decodeTableWord 32 0x06FEFFFF = some (.l 0xFFFE#16 0xFF#8) ∧
    decodeTableWord 32 0x0D101112 = none := by decide

/-! ### ADD, NEG, AND, OR, XOR (2.2 to 2.4) -/

theorem test_add_wraps :
    oneStep (start 0x00101112#32 [(0x10#16, 0xFFFFFFFF#32), (0x11#16, 1#32), (0x12#16, 0x55#32)])
      0x12#16 = some (0#32, 0x8001#32, 0#32, []) := by decide
theorem test_add_relative_jump :
    oneStep (start 0x00001100#32 [(0x11#16, 5#32)]) 0x11#16 =
      some (5#32, 0x8005#32, 0#32, []) := by decide
theorem test_neg_most_negative :
    oneStep (start 0x011411AB#32 [(0x14#16, 0x80000000#32), (0x11#16, 0x55#32)]) 0x11#16 =
      some (0x80000000#32, 0x8001#32, 0#32, []) := by decide
theorem test_neg_in_place :
    oneStep (start 0x01141400#32 [(0x14#16, 5#32)]) 0x14#16 =
      some (0xFFFFFFFB#32, 0x8001#32, 0#32, []) := by decide
theorem test_and_vector :
    oneStep (start 0x02202122#32 [(0x20#16, 0x00FF00F0#32), (0x21#16, 0x000FF03C#32)]) 0x22#16 =
      some (0x000F0030#32, 0x8001#32, 0#32, []) := by decide
theorem test_and_own_pc_is_no_jump :
    oneStep (start 0x02000000#32 []) 0x20#16 = some (0#32, 0x8001#32, 0#32, []) := by decide
theorem test_or_vector :
    oneStep (start 0x04202122#32 [(0x20#16, 0x00FF00F0#32), (0x21#16, 0x000FF03C#32)]) 0x22#16 =
      some (0x00FFF0FC#32, 0x8001#32, 0#32, []) := by decide
theorem test_or_jump :
    oneStep (start 0x04202000#32 [(0x20#16, 0x9000#32)]) 0x20#16 =
      some (0x9000#32, 0x9000#32, 0#32, []) := by decide
theorem test_xor_vector :
    oneStep (start 0x05202122#32 [(0x20#16, 0xFFFFFFFF#32), (0x21#16, 0x12345678#32)]) 0x22#16 =
      some (0xEDCBA987#32, 0x8001#32, 0#32, []) := by decide
theorem test_xor_pc_jumps_to_zero :
    oneStep (start 0x05000000#32 []) 0x20#16 = some (0#32, 0#32, 0#32, []) := by decide

/-! ### L, S, LI, LP (2.5, 2.6) -/

theorem test_l_data_has_no_side_effect :
    oneStep (start 0x06FFFF05#32 [(0xFFFF#16, 0x12345641#32)]) 0x05#16 =
      some (0x12345641#32, 0x8001#32, 0#32, []) := by decide
theorem test_l_own_word :
    oneStep (start 0x06008005#32 []) 0x05#16 =
      some (0x06008005#32, 0x8001#32, 0#32, []) := by decide
theorem test_s_strobe_emits_low_byte :
    oneStep (start 0x0910FEFF#32 [(0x10#16, 0x80000000#32), (0xFFFF#16, 0x12345641#32)]) 0xFFFF#16 =
      some (0x12345641#32, 0x8001#32, 0#32, [0x41#8]) := by decide
theorem test_s_full_address :
    oneStep (start 0x09100090#32 [(0x10#16, 0xCAFEF00D#32)]) 0x9000#16 =
      some (0xCAFEF00D#32, 0x8001#32, 0#32, []) := by decide
theorem test_li_zero_extends :
    oneStep (start 0x0A10FFFF#32 [(0x10#16, 0xFFFFFFFF#32)]) 0x10#16 =
      some (0x0000FFFF#32, 0x8001#32, 0#32, []) := by decide
theorem test_li_self_falls_through :
    oneStep (start 0x0A000080#32 []) 0x10#16 = some (0#32, 0x8001#32, 0#32, []) := by decide
theorem test_lp_most_negative_keeps :
    oneStep (start 0x0C101112#32
      [(0x10#16, 0x80000000#32), (0x11#16, 0xAAAA#32), (0x12#16, 0x5555#32)]) 0x12#16 =
      some (0x5555#32, 0x8001#32, 0#32, []) := by decide
theorem test_lp_branch_taken :
    oneStep (machineAt 0x8006#32
      [(0x8006#16, 0x0C101300#32), (0x10#16, 2#32), (0x13#16, 0x8004#32)]) 0x13#16 =
      some (0x8004#32, 0x8004#32, 0#32, []) := by decide

/-! ### The step (2.7) -/

theorem test_vle_halts :
    modeAfter (start 0x03000000#32 []) = some (.halted (.unsupportedVLE 0x03#8)) := by decide
theorem test_illegal_halts :
    modeAfter (start 0x0D101112#32 []) = some (.halted (.illegalOpcode 0x0D#8)) := by decide
theorem test_pc_out_of_range_halts :
    modeAfter (machineAt 0x10000#32 []) = some (.halted (.outOfBounds 0x10000#32)) := by decide
theorem test_halted_answers_its_cause :
    step (after (machineAt 0xFFFFFFFF#32 [])) = .fault (.outOfBounds 0xFFFFFFFF#32) := by rfl

/-- WRITING fetched as code: a level test, no instruction wrote it. -/
theorem test_strobe_level :
    oneStep (machineAt 0xFFFE#32 [(0xFFFE#16, 0x0A104100#32), (0xFFFF#16, 0x5A#32)]) 0x10#16 =
      some (0x41#32, 0xFFFF#32, 0#32, [0x5A#8]) := by decide
theorem test_no_wrap_at_the_top :
    oneStep (machineAt 0xFFFF#32 [(0xFFFF#16, 0x0A104100#32)]) 0x10#16 =
      some (0x41#32, 0x10000#32, 0#32, []) := by decide
theorem test_cell_zero_is_code :
    oneStep (machineAt 0#32 []) 0x10#16 = some (0#32, 1#32, 0#32, []) := by decide

/-- A Machine at a breakpoint, the host's commands pending (2.7, Breakpoints). -/
def atBreak (cmds : List DbgCmd) : State :=
  { machineAt 0x8002#32 [(0x8002#16, 0x0A104100#32)] with bp := [0x8000#16, 0x8002#16], cmds := cmds }

theorem test_break_suspends :
    (after (atBreak [])).mode = .debugging ∧ (after (atBreak [])).events = [.brk 0x8002#16] ∧
      (after (atBreak [])).reg 0x10#8 = 0#32 := by decide
theorem test_debugger_read :
    (after (after (atBreak [.read 0x0000#16]))).events =
      [.brk 0x8002#16, .dbgData 0x8002#32] := by decide
theorem test_continue_executes :
    (after (after (atBreak [.cont]))).reg 0x10#8 = 0x41#32 ∧
      (after (after (atBreak [.cont]))).pc = 0x8003#32 ∧
      (after (after (atBreak [.cont]))).mode = .running := by decide
theorem test_debugger_exit :
    (after (after (atBreak [.exit]))).mode = .halted .debuggerExit := by decide

/-! ### Reset, load, the placed word -/

theorem test_reset_breaks_first :
    (after State.reset).mode = .debugging ∧ (after State.reset).events = [.brk 0x8000#16] := by
  decide
theorem test_placed_word_runs_from_reset :
    oneStep (State.reset.withFetchWord 32 0x0A103412) 0x10#16 =
      some (0x1234#32, 0x8001#32, 0#32, []) := by decide

/-- Program P5 (part 3): a label used before its line, a breakpoint mark, upper and lower case hex. -/
def sourceP5 : List Char :=
  ['L', 'I', ' ', '0', 'x', '1', 'F', ' ', 'r', 'e', 't', '\n',
   'L', 'I', ' ', '0', ' ', 'f', 'u', 'n', 'c', '\n',
   'r', 'e', 't', ':', ' ', '~', 'S', ' ', '3', '2', ' ', '0', 'x', '9', '0', '0', '0', '\n', '\n',
   'N', 'E', 'G', ' ', '0', ' ', '0', '\n',
   'f', 'u', 'n', 'c', ':', ' ', 'L', 'I', ' ', '0', 'x', '2', '0', ' ', '0', 'x', '0', '0', 'a', 'A',
   '\n', 'O', 'R', ' ', '0', 'x', '1', 'F', ' ', ':', '3', '1', ' ', '0']

theorem test_assemble_p5 :
    (match assemble sourceP5 with
      | .ok (is, bp) => some (imageOf is, bp)
      | .error _ => none) =
    some ([0x0A1F0280#32, 0x0A000480#32, 0x09200090#32, 0x01000000#32, 0x0A20AA00#32, 0x041F1F00#32],
      [0x8002#16]) := by decide
theorem test_assemble_errors :
    assemble ['M', 'O', 'V', ' ', '1', ' ', '2'] = .error .unknownMnemonic ∧
    assemble ['L', 'I', ' ', '0', ' ', 'x'] = .error .unresolvedSymbol ∧
    assemble ['L', 'I', ' ', '0'] = .error .notInSource := by decide

/-! ### Witnesses: every statement's hypotheses are met -/

/-- A state whose next step executes its word at 0x8000. -/
theorem start_executes (w : Word) (cells : List (Addr × Word))
    (h : (start w cells).pc = 0x8000#32) (hm : (start w cells).mode = .running)
    (hb : (start w cells).bp = []) : ExecutesFrom (start w cells) (start w cells) :=
  .running hm (by rw [h]; decide) (by rw [hb]; simp) rfl

/-- The Debugging state from which Continue executes the word at 0x8000. -/
def suspended (w : Word) : State := { start w [] with mode := .debugging, cmds := [.cont] }

theorem witness_ExecutesFrom_running_at_the_top :
    ExecutesFrom (machineAt 0xFFFF#32 [(0xFFFF#16, 0x0A104100#32)])
      (machineAt 0xFFFF#32 [(0xFFFF#16, 0x0A104100#32)]) :=
  .running rfl (by decide) (by decide) rfl

theorem witness_ExecutesFrom_continued :
    ExecutesFrom (suspended 0x0A103412#32)
      { suspended 0x0A103412#32 with mode := .running, cmds := [] } :=
  .continued [] rfl (by decide) rfl rfl

theorem witness_CodecExactInverses : decode 0x06FEFFFF#32 = .instr (.l 0xFFFE#16 0xFF#8) := by decide

/-- One word for each clause: the ends of the VLE class, the nine opcodes, the ends of the
unassigned ones. -/
theorem witness_DecodeDispatchesOnTheOpcodeByte :
    [0x03000000#32, 0xFFFFFFFF#32].map (fun w => (w.extractLsb' 24 8).extractLsb' 0 2) =
      [0b11#2, 0b11#2] ∧
    [0x00FFFFFF#32, 0x01FFFFFF#32, 0x02202122#32, 0x04202122#32, 0x05202122#32, 0x06FEFFFF#32,
      0x09FF0100#32, 0x0AFFFFFF#32, 0x0CFFFFFF#32].map (fun w => w.extractLsb' 24 8) =
      [0x00#8, 0x01#8, 0x02#8, 0x04#8, 0x05#8, 0x06#8, 0x09#8, 0x0A#8, 0x0C#8] ∧
    [0x08000000#32, 0xFE000000#32].map (fun w => (w.extractLsb' 24 8).extractLsb' 0 2) =
      [0b00#2, 0b10#2] ∧
    (∀ n ∈ [0x08, 0xFE], BitVec.ofNat 8 n ∉
      [0x00#8, 0x01#8, 0x02#8, 0x04#8, 0x05#8, 0x06#8, 0x09#8, 0x0A#8, 0x0C#8]) := by decide

/-- Serves KindDecodersCheckTheLeadingByte too, whose clauses are those of the nine opcodes. -/
theorem witness_KindDecodersCheckTheLeadingByte :
    (0x02101112#32 : Word).extractLsb' 24 8 ≠ Kind.add.opcode ∧
      (0x00101112#32 : Word).extractLsb' 24 8 = Kind.add.opcode := by decide

theorem witness_AddWritesTheSum :
    ExecutesFrom (start 0x00FFFF00#32 []) (start 0x00FFFF00#32 []) ∧
      decode ((start 0x00FFFF00#32 []).fetch (start 0x00FFFF00#32 []).pc) =
        .instr (.add 0xFF#8 0xFF#8 0x00#8) :=
  ⟨start_executes _ _ rfl rfl rfl, by decide⟩
theorem witness_NegWritesTheNegation :
    ExecutesFrom (start 0x010000FF#32 []) (start 0x010000FF#32 []) ∧
      decode ((start 0x010000FF#32 []).fetch (start 0x010000FF#32 []).pc) =
        .instr (.neg 0x00#8 0x00#8 0xFF#8) :=
  ⟨start_executes _ _ rfl rfl rfl, by decide⟩
theorem witness_AndWritesTheConjunction :
    ExecutesFrom (start 0x022020FF#32 []) (start 0x022020FF#32 []) ∧
      decode ((start 0x022020FF#32 []).fetch (start 0x022020FF#32 []).pc) =
        .instr (.and 0x20#8 0x20#8 0xFF#8) :=
  ⟨start_executes _ _ rfl rfl rfl, by decide⟩
theorem witness_OrWritesTheDisjunction :
    ExecutesFrom (start 0x04202000#32 []) (start 0x04202000#32 []) ∧
      decode ((start 0x04202000#32 []).fetch (start 0x04202000#32 []).pc) =
        .instr (.or 0x20#8 0x20#8 0x00#8) :=
  ⟨start_executes _ _ rfl rfl rfl, by decide⟩
theorem witness_XorWritesTheDifference :
    ExecutesFrom (start 0x05000000#32 []) (start 0x05000000#32 []) ∧
      decode ((start 0x05000000#32 []).fetch (start 0x05000000#32 []).pc) =
        .instr (.xor 0x00#8 0x00#8 0x00#8) :=
  ⟨start_executes _ _ rfl rfl rfl, by decide⟩
theorem witness_LoadCopiesTheCell :
    ExecutesFrom (start 0x06FEFFFF#32 []) (start 0x06FEFFFF#32 []) ∧
      decode ((start 0x06FEFFFF#32 []).fetch (start 0x06FEFFFF#32 []).pc) =
        .instr (.l 0xFFFE#16 0xFF#8) :=
  ⟨start_executes _ _ rfl rfl rfl, by decide⟩
theorem witness_StoreCopiesTheRegister :
    ExecutesFrom (start 0x0910FFFF#32 []) (start 0x0910FFFF#32 []) ∧
      decode ((start 0x0910FFFF#32 []).fetch (start 0x0910FFFF#32 []).pc) =
        .instr (.s 0x10#8 0xFFFF#16) :=
  ⟨start_executes _ _ rfl rfl rfl, by decide⟩
theorem witness_LoadImmediateZeroExtends :
    ExecutesFrom (start 0x0A00FFFF#32 []) (start 0x0A00FFFF#32 []) ∧
      decode ((start 0x0A00FFFF#32 []).fetch (start 0x0A00FFFF#32 []).pc) =
        .instr (.li 0x00#8 0xFFFF#16) :=
  ⟨start_executes _ _ rfl rfl rfl, by decide⟩

/-- The condition at its four boundaries: 1 and 0x7FFFFFFF copy, 0 and 0x80000000 do not. -/
theorem witness_LoadIfPositiveCopiesOrNot :
    (ExecutesFrom (start 0x0C101112#32 [(0x10#16, 1#32)]) (start 0x0C101112#32 [(0x10#16, 1#32)]) ∧
      decode ((start 0x0C101112#32 []).fetch (start 0x0C101112#32 []).pc) =
        .instr (.lp 0x10#8 0x11#8 0x12#8)) ∧
    (∀ n ∈ [1, 0x7FFFFFFF], ((start 0#32 [(0x10#16, BitVec.ofNat 32 n)]).reg 0x10#8).msb = false ∧
      (start 0#32 [(0x10#16, BitVec.ofNat 32 n)]).reg 0x10#8 ≠ 0x00000000#32) ∧
    (start 0#32 [(0x10#16, 0x80000000#32)]).reg 0x10#8 = 0x80000000#32 ∧
    (start 0#32 []).reg 0x10#8 = 0x00000000#32 :=
  ⟨⟨start_executes _ _ rfl rfl rfl, by decide⟩, by decide, by decide, by decide⟩

/-- Sums of exactly 0xFFFFFFFF and one more, and the two sides of the NEG corner. -/
theorem witness_CautiousOverflowParameterFaults :
    ((start 0#32 [(0x10#16, 0xFFFFFFFE#32), (0x11#16, 1#32)]).reg 0x10#8).toNat +
      ((start 0#32 [(0x10#16, 0xFFFFFFFE#32), (0x11#16, 1#32)]).reg 0x11#8).toNat = 0xFFFFFFFF ∧
    0xFFFFFFFF < ((start 0#32 [(0x10#16, 0xFFFFFFFF#32), (0x11#16, 1#32)]).reg 0x10#8).toNat +
      ((start 0#32 [(0x10#16, 0xFFFFFFFF#32), (0x11#16, 1#32)]).reg 0x11#8).toNat ∧
    (start 0#32 [(0x10#16, 0x80000000#32)]).reg 0x10#8 = 0x80000000#32 ∧
    (start 0#32 [(0x10#16, 0x7FFFFFFF#32)]).reg 0x10#8 ≠ 0x80000000#32 := by decide

/-- Serves StepRunsTheDecodedInstruction, StrobeCheckTestsTheLevel (its clauses by the vectors
test_s_strobe_emits_low_byte and test_s_full_address) and PcAdvanceComparesValues (test_li_zero_extends
and test_or_jump). -/
theorem witness_StepRunsTheDecodedInstruction :
    ExecutesFrom (start 0x0A103412#32 []) (start 0x0A103412#32 []) ∧
    decode ((start 0x0A103412#32 []).fetch (start 0x0A103412#32 []).pc) =
      .instr (.li 0x10#8 0x1234#16) ∧
    exec (.li 0x10#8 0x1234#16) (start 0x0A103412#32 []) =
      .next ((start 0x0A103412#32 []).write 0x0010#16 0x1234#32) :=
  ⟨start_executes _ _ rfl rfl rfl, by decide, rfl⟩

theorem witness_StrobeCheckTestsTheLevel :
    ((start 0#32 []).write 0xFFFE#16 1#32).read 0xFFFE#16 ≠ 0x00000000#32 ∧
    exec (.s 0x10#8 0xFFFE#16) (start 0x0910FEFF#32 [(0x10#16, 1#32)]) =
      .next ((start 0x0910FEFF#32 [(0x10#16, 1#32)]).write 0xFFFE#16 1#32) ∧
    ((start 0x0A103412#32 []).write 0x0010#16 0x1234#32).read 0xFFFE#16 = 0x00000000#32 :=
  ⟨by decide, rfl, by decide⟩

theorem witness_PcAdvanceComparesValues :
    ((start 0x0A103412#32 []).write 0x0010#16 0x1234#32).read 0x0000#16 =
      (start 0x0A103412#32 []).pc ∧
    exec (.li 0x00#8 0x9000#16) (start 0x0A000090#32 []) =
      .next ((start 0x0A000090#32 []).write 0x0000#16 0x9000#32) ∧
    ((start 0x0A000090#32 []).write 0x0000#16 0x9000#32).read 0x0000#16 ≠
      (start 0x0A000090#32 []).pc :=
  ⟨by decide, rfl, by decide⟩

/-- Running with a breakpoint at the PC; with the PC one above the space; and at its top with each
class of word. -/
theorem witness_RunningStepAlgorithm :
    ((atBreak []).mode = .running ∧ (atBreak []).pc.toNat ≤ 0xFFFF ∧
      (atBreak []).pc.extractLsb' 0 16 ∈ (atBreak []).bp) ∧
    0xFFFF < (machineAt 0x10000#32 []).pc.toNat ∧
    (∀ n ∈ [0x03000000, 0x08000000, 0x0A104100],
      (machineAt 0xFFFF#32 [(0xFFFF#16, BitVec.ofNat 32 n)]).pc.toNat ≤ 0xFFFF ∧
      (machineAt 0xFFFF#32 [(0xFFFF#16, BitVec.ofNat 32 n)]).bp = [] ∧
      (machineAt 0xFFFF#32 [(0xFFFF#16, BitVec.ofNat 32 n)]).read 0xFFFF#16 = BitVec.ofNat 32 n) ∧
    decode 0x08000000#32 = .illegal 0x08#8 := by decide

/-- Serves BreakpointSuspendsBeforeTheInstruction too, whose clauses are the first two. -/
theorem witness_BreakpointSuspendsBeforeTheInstruction :
    (atBreak []).mode = .running ∧ cellOf (atBreak []).pc ∈ (atBreak []).bp ∧
      (machineAt 0x10000#32 []).mode = .running := by decide

theorem witness_SourceOutputCaseEmitsOneByte :
    ExecutesFrom (start 0x0910FEFF#32 [(0x10#16, 1#32), (0xFFFF#16, 0x41#32)])
      (start 0x0910FEFF#32 [(0x10#16, 1#32), (0xFFFF#16, 0x41#32)]) ∧
    decode ((start 0x0910FEFF#32 []).fetch (start 0x0910FEFF#32 []).pc) =
      .instr (.s 0x10#8 0xFFFE#16) ∧
    ((start 0x0910FEFF#32 [(0x10#16, 1#32), (0xFFFF#16, 0x41#32)]).write 0xFFFE#16 1#32).data =
      0x00000041#32 ∧
    ((start 0x0910FEFF#32 [(0x10#16, 1#32), (0xFFFF#16, 0x41#32)]).write 0xFFFE#16 1#32).writing =
      0x00000001#32 ∧
    ExecutesFrom (after (start 0x0910FEFF#32 [(0x10#16, 1#32), (0xFFFF#16, 0x41#32)]))
      (after (start 0x0910FEFF#32 [(0x10#16, 1#32), (0xFFFF#16, 0x41#32)])) :=
  ⟨start_executes _ _ rfl rfl rfl, by decide, by decide, by decide,
    .running rfl (by decide) (by decide) rfl⟩

theorem witness_RunsEndOnlyByFaultOrExit :
    step (start 0x03000000#32 []) = .next (after (start 0x03000000#32 [])) ∧
      (after (start 0x03000000#32 [])).mode = .halted (.unsupportedVLE 0x03#8) := ⟨rfl, rfl⟩

theorem witness_HaltedIsFinal :
    (after (start 0x08000000#32 [])).mode = .halted (.illegalOpcode 0x08#8) := rfl

/-- A word for each idiom, all in steps that execute (start_executes). -/
theorem witness_ControlTransferIdioms :
    ExecutesFrom (start 0x0A000080#32 []) (start 0x0A000080#32 []) ∧
    [0x0A000080#32, 0x06009000#32, 0x09100000#32, 0x02202000#32, 0x04202000#32, 0x00001100#32,
      0x0C101300#32].map decode =
    [.instr (.li 0x00#8 0x8000#16), .instr (.l 0x9000#16 0x00#8), .instr (.s 0x10#8 0x0000#16),
      .instr (.and 0x20#8 0x20#8 0x00#8), .instr (.or 0x20#8 0x20#8 0x00#8),
      .instr (.add 0x00#8 0x11#8 0x00#8), .instr (.lp 0x10#8 0x13#8 0x00#8)] :=
  ⟨start_executes _ _ rfl rfl rfl, by decide⟩

/-- `NEG 0 0` at 0x8000, and the advance from 0xFFFF, both leave the PC above the space. -/
theorem witness_BadPcFaultsOneStepLate :
    ExecutesFrom (start 0x01000000#32 []) (start 0x01000000#32 []) ∧
    0xFFFF < (after (start 0x01000000#32 [])).pc.toNat ∧
    (after (machineAt 0xFFFF#32 [(0xFFFF#16, 0x0A104100#32)])).pc = 0x10000#32 :=
  ⟨start_executes _ _ rfl rfl rfl, by decide, by decide⟩

theorem witness_ZeroMemoryDoublesThePc :
    ExecutesFrom (machineAt 0#32 []) (machineAt 0#32 []) ∧
      (machineAt 0#32 []).fetch 0#32 = 0x00000000#32 ∧
      (machineAt 0x4000#32 []).fetch 0x4000#32 = 0x00000000#32 :=
  ⟨.running rfl (by decide) (by decide) rfl, by decide, by decide⟩

/-- A store to 0xFFFF from the cell before it, the highest place the statement covers. -/
theorem witness_StoredWordIsExecutedNext :
    ExecutesFrom (machineAt 0xFFFE#32 [(0xFFFE#16, 0x0921FFFF#32), (0x21#16, 0x06088030#32)])
      (machineAt 0xFFFE#32 [(0xFFFE#16, 0x0921FFFF#32), (0x21#16, 0x06088030#32)]) ∧
    cellOf (0xFFFE#32 + 0x00000001#32) = 0xFFFF#16 ∧
    decode 0x0921FFFF#32 = .instr (.s 0x21#8 0xFFFF#16) ∧
    decode ((machineAt 0xFFFE#32 [(0xFFFE#16, 0x0921FFFF#32), (0x21#16, 0x06088030#32)]).reg 0x21#8) =
      .instr (.l 0x8008#16 0x30#8) :=
  ⟨.running rfl (by decide) (by decide) rfl, by decide, by decide, by decide⟩

/-- Each fault's premises in mode Running and after Continue, and an image of one word too many. -/
theorem witness_FatalFaultsByCause :
    ExecutesFrom (start 0xFF000000#32 []) (start 0xFF000000#32 []) ∧
    ExecutesFrom (start 0x08000000#32 []) (start 0x08000000#32 []) ∧
    0xFFFF < (machineAt 0x10000#32 []).pc.toNat ∧
    32768 < (List.replicate 32769 0x00000000#32).length :=
  ⟨start_executes _ _ rfl rfl rfl, start_executes _ _ rfl rfl rfl, by decide,
    by rw [List.length_replicate]; decide⟩

/-- The suspended Machine, with each command at the head of its queue (DebuggerCommandsChangeNoCell,
ContinueSkipsTheBreakpointTest). -/
theorem witness_ContinueSkipsTheBreakpointTest :
    (suspended 0x0A103412#32).mode = .debugging ∧ (suspended 0x0A103412#32).cmds = [.cont] ∧
      step { suspended 0x0A103412#32 with mode := .running, cmds := [], bp := [] } =
        .next (after { suspended 0x0A103412#32 with mode := .running, cmds := [], bp := [] }) :=
  ⟨rfl, rfl, rfl⟩

theorem witness_DebuggerCommandsChangeNoCell :
    (after (atBreak [])).mode = .debugging ∧ (after (atBreak [])).cmds = [] ∧
    (after (atBreak [.read 0xFFFF#16])).cmds = [.read 0xFFFF#16] ∧
    (after (atBreak [.exit])).cmds = [.exit] ∧
    (after (atBreak [.invalid])).cmds = [.invalid] := by decide

/-- A step that strobes. -/
theorem witness_WritingIsClearAtStepBoundaries :
    step (start 0x0910FEFF#32 [(0x10#16, 1#32)]) =
      .next (after (start 0x0910FEFF#32 [(0x10#16, 1#32)])) ∧
    (after (start 0x0910FEFF#32 [(0x10#16, 1#32)])).mode = .running ∧
    (start 0x0910FEFF#32 [(0x10#16, 1#32)]).writing = 0x00000000#32 ∧
    (after (start 0x0910FEFF#32 [(0x10#16, 1#32)])).out = [0x00#8] := ⟨rfl, rfl, rfl, rfl⟩

theorem witness_OnlyStoreWritesAboveTheZeroPage :
    step (start 0x09100001#32 [(0x10#16, 7#32)]) =
      .next (after (start 0x09100001#32 [(0x10#16, 7#32)])) ∧
    (after (start 0x09100001#32 [(0x10#16, 7#32)])).read 0x0100#16 ≠
      (start 0x09100001#32 [(0x10#16, 7#32)]).read 0x0100#16 := ⟨rfl, by decide⟩

/-- Two states that differ only at 0x9000, and an S that both execute. -/
theorem witness_OnlyLoadReadsAboveTheZeroPage :
    (∀ f : Byte, (machineAt 0#32 [(0x9000#16, 1#32)]).reg f = (machineAt 0#32 []).reg f) ∧
    machineAt 0#32 [(0x9000#16, 1#32)] ≠ machineAt 0#32 [] :=
  ⟨fun f => by
    have hne : zeroPage f ≠ 0x9000#16 := by
      intro e
      have h := zeroPage_lt f
      rw [e] at h
      exact absurd h (by decide)
    simp only [machineAt, State.reg, State.setPc, List.foldl, State.read_write, if_neg hne],
    by decide⟩

theorem witness_EveryStepKeepsTheInvariant :
    State.reset.Inv ∧ step State.reset = .next (after State.reset) := ⟨by decide, rfl⟩

/-- Two steps without breakpoints from a Machine at its breakpoint: the LI at 0x8002, then the zero
word at 0x8003, which doubles the PC. -/
theorem witness_BreakpointsAreAStutter :
    (atBreak []).mode = .running ∧
      (match runSteps 2 (atBreak []).alone with
        | .next t => some t.pc
        | .fault _ => none
        | .refused _ => none) = some 0x00010006#32 := by decide

theorem witness_BreakpointsAreAFixedSet :
    step (atBreak []) = .next (after (atBreak [])) ∧
    (∀ a, a ∈ [0x8002#16, 0x8000#16, 0x8002#16] ↔ a ∈ (atBreak []).bp) ∧
    load [] [] = .next State.reset :=
  ⟨rfl, fun a => by simp [atBreak]; tauto, rfl⟩

theorem witness_FaultsArePrecise :
    step (atBreak [.exit]) = .next (after (atBreak [.exit])) ∧
    step (after (atBreak [.exit])) = .next (after (after (atBreak [.exit]))) ∧
    (after (after (atBreak [.exit]))).mode = .halted .debuggerExit := ⟨rfl, rfl, rfl⟩

theorem witness_OutputIsAppendOnly :
    step (start 0x0910FEFF#32 [(0x10#16, 1#32), (0xFFFF#16, 0x41#32)]) =
      .next (after (start 0x0910FEFF#32 [(0x10#16, 1#32), (0xFFFF#16, 0x41#32)])) := rfl

/-- Each limit of R262 at its boundary. -/
theorem witness_LoadGivesTheInitialState :
    (List.replicate 32768 0x00000000#32).length ≤ 32768 ∧
    32768 < (List.replicate 32769 0x00000000#32).length :=
  ⟨by rw [List.length_replicate], by rw [List.length_replicate]; decide⟩

/-- Line 2 of the text is marked, and the others are not. -/
theorem witness_AssemblyIsOneWordPerLine :
    ∃ is bp ls, assemble sourceP5 = .ok (is, bp) ∧ bp = [0x8002#16] ∧
      parseLines (linesOf sourceP5) = .ok ls ∧
      ls.map AsmLine.brk = [false, false, true, false, false, false] :=
  ⟨_, _, _, rfl, rfl, rfl, rfl⟩

/-- Label `func` names line 4 and is used on line 1. -/
theorem witness_LabelsNameTheirLines :
    ∃ is bp ls, assemble sourceP5 = .ok (is, bp) ∧ parseLines (linesOf sourceP5) = .ok ls ∧
      ls.map AsmLine.label =
        [none, none, some ['r', 'e', 't'], none, some ['f', 'u', 'n', 'c'], none] :=
  ⟨_, _, _, rfl, rfl, rfl⟩

theorem witness_LineFormsAreTakenApart :
    ['S'] ≠ ([] : Token) ∧ ['r', 'e', 't'] ≠ ([] : Token) ∧
    (∀ c, ['r', 'e', 't'].head? = some c → c.isDigit = false) ∧
    ['S'].head? ≠ some '~' ∧ ['S'].getLast? ≠ some ':' :=
  ⟨by decide, by decide, fun c hc => by cases hc; decide, by decide, by decide⟩

/-- A value at the top of a 16-bit field, one past it, and a decimal one. -/
theorem witness_MnemonicsTakeTheirOperands :
    operandValue [] ['0', 'x', 'F', 'F', 'F', 'F'] = .ok 0xFFFF ∧
    operandValue [] ['0', 'x', '1', '0', '0', '0', '0'] = .ok 0x10000 ∧
    operandValue [] ['3', '2'] = .ok 32 := by decide

end Sys2Proof.Tests
end

section
/-! The registers as cells of memory (10_state.md R22): reads after writes of registers, the execute
part of L and S, and obligation O44. -/

namespace Sys2Proof.Machine

/-! ### The cell an 8-bit field names -/

/-- `zext_16(f)` as the address with `f`'s value (R84, R153). -/
theorem zeroPage_eq_ofNat (f : Byte) : zeroPage f = BitVec.ofNat 16 f.toNat :=
  (BitVec.ofNat_toNat 16 f).symm

/-- Distinct fields name distinct cells (R22). -/
@[simp] theorem zeroPage_eq_iff (f g : Byte) : zeroPage f = zeroPage g ↔ f = g :=
  ⟨zeroPage_inj, congrArg zeroPage⟩

/-! ### Registers read and written -/

variable (s : State)

theorem State.read_zeroPage (f : Byte) : s.read (zeroPage f) = s.reg f := rfl
theorem State.write_zeroPage (f : Byte) (v : Word) :
    s.write (zeroPage f) v = s.setReg f v := rfl

/-- A register after a write to a register (R22, R58). -/
theorem State.reg_setReg (f g : Byte) (v : Word) :
    (s.setReg f v).reg g = if g = f then v else s.reg g := by
  calc (s.setReg f v).reg g
      = if zeroPage g = zeroPage f then v else s.reg g := s.read_write (zeroPage f) (zeroPage g) v
    _ = if g = f then v else s.reg g := by simp only [zeroPage_eq_iff]

/-! ### The execute part of L and S -/

/-- R150. -/
theorem exec_l (src : Addr) (dst : Byte) :
    exec (.l src dst) s = .next (s.setReg dst (s.read src)) := rfl

/-- R151. -/
theorem exec_s (src : Byte) (dst : Addr) :
    exec (.s src dst) s = .next (s.write dst (s.reg src)) := rfl

/-- An L from a register's own cell reads the register (R9, R22). -/
theorem exec_l_zeroPage (f g : Byte) :
    exec (.l (zeroPage f) g) s = .next (s.setReg g (s.reg f)) := by
  rw [exec_l, State.read_zeroPage]

/-- An S to a register's own cell writes the register (R9, R22). -/
theorem exec_s_zeroPage (f g : Byte) :
    exec (.s g (zeroPage f)) s = .next (s.setReg f (s.reg g)) := by
  rw [exec_s, State.write_zeroPage]

/-- Settles O44: the cell of address `f` is `zeroPage f`, and `zeroPage` is injective. -/
theorem zeroPageFieldsNameTheirOwnCells : Obligations.ZeroPageFieldsNameTheirOwnCells := by
  intro f
  rw [← zeroPage_eq_ofNat f]
  refine ⟨rfl, fun s v => ⟨?read, ?write, ?distinct, fun g => ⟨?load, ?store⟩⟩⟩
  case read => exact (s.read_zeroPage f).symm
  case write => exact (s.write_zeroPage f v).symm
  case distinct => exact fun g => s.reg_setReg f g v
  case load => exact exec_l_zeroPage s f g
  case store => exact exec_s_zeroPage s f g

end Sys2Proof.Machine
end

section
/-! What each instruction's execute part answers, as an equation per instruction, and that it depends
on no cell above the zero page unless the instruction is an L (10_state.md R23). -/

namespace Sys2Proof.Machine

/-! ### The execute part of the other instructions -/

variable (s : State)

/-- R130. -/
theorem exec_add (lhs rhs out : Byte) :
    exec (.add lhs rhs out) s = .next (s.setReg out (s.reg lhs + s.reg rhs)) := rfl

/-- R131; the pad byte is no operand (R89). -/
theorem exec_neg (input out pad : Byte) :
    exec (.neg input out pad) s = .next (s.setReg out (~~~s.reg input + 0x00000001#32)) := rfl

/-- R132. -/
theorem exec_and (lhs rhs out : Byte) :
    exec (.and lhs rhs out) s = .next (s.setReg out (s.reg lhs &&& s.reg rhs)) := rfl

/-- R133. -/
theorem exec_or (lhs rhs out : Byte) :
    exec (.or lhs rhs out) s = .next (s.setReg out (s.reg lhs ||| s.reg rhs)) := rfl

/-- R134. -/
theorem exec_xor (lhs rhs out : Byte) :
    exec (.xor lhs rhs out) s = .next (s.setReg out (s.reg lhs ^^^ s.reg rhs)) := rfl

/-- R152. -/
theorem exec_li (addr : Byte) (imm : BitVec 16) :
    exec (.li addr imm) s = .next (s.setReg addr (immediate imm)) := rfl

/-- R170, the condition met. -/
theorem exec_lp_positive {cond : Byte} (src dst : Byte) (h : isPositive (s.reg cond) = true) :
    exec (.lp cond src dst) s = .next (s.setReg dst (s.reg src)) := if_pos h

/-- R170, the condition not met. -/
theorem exec_lp_not_positive {cond : Byte} (src dst : Byte) (h : ¬ isPositive (s.reg cond) = true) :
    exec (.lp cond src dst) s = .next s := if_neg h

/-! ### What the execute part depends on -/

/-- The one write of an instruction other than L is the same, cell and value, from two states with
the same zero page (R23). -/
theorem exec_same_write {i : Instr} {s s' t t' : State} (hreg : ∀ f, s.reg f = s'.reg f)
    (hi : ∀ src dst, i ≠ .l src dst) (h : exec i s = .next t) (h' : exec i s' = .next t') :
    (t = s ∧ t' = s') ∨ ∃ a v, t = s.write a v ∧ t' = s'.write a v := by
  cases i with
  | add lhs rhs out =>
    rw [exec_add, hreg lhs, hreg rhs] at h
    cases h; cases h'; exact .inr ⟨_, _, rfl, rfl⟩
  | neg input out pad =>
    rw [exec_neg, hreg input] at h
    cases h; cases h'; exact .inr ⟨_, _, rfl, rfl⟩
  | and lhs rhs out =>
    rw [exec_and, hreg lhs, hreg rhs] at h
    cases h; cases h'; exact .inr ⟨_, _, rfl, rfl⟩
  | or lhs rhs out =>
    rw [exec_or, hreg lhs, hreg rhs] at h
    cases h; cases h'; exact .inr ⟨_, _, rfl, rfl⟩
  | xor lhs rhs out =>
    rw [exec_xor, hreg lhs, hreg rhs] at h
    cases h; cases h'; exact .inr ⟨_, _, rfl, rfl⟩
  | l src dst => exact absurd rfl (hi src dst)
  | s src dst =>
    rw [exec_s, hreg src] at h
    cases h; cases h'; exact .inr ⟨_, _, rfl, rfl⟩
  | li addr imm => cases h; cases h'; exact .inr ⟨_, _, rfl, rfl⟩
  | lp cond src dst =>
    by_cases hc : isPositive (s.reg cond) = true
    · rw [exec_lp_positive s src dst hc, hreg src] at h
      rw [exec_lp_positive s' src dst (hreg cond ▸ hc)] at h'
      cases h; cases h'; exact .inr ⟨_, _, rfl, rfl⟩
    · rw [exec_lp_not_positive s src dst hc] at h
      rw [exec_lp_not_positive s' src dst (hreg cond ▸ hc)] at h'
      cases h; cases h'; exact .inl ⟨rfl, rfl⟩

/-- Settles O36: both states get the same write, so a register holds the written value in both or its
old value in both. -/
theorem onlyLoadReadsAboveTheZeroPage : Obligations.OnlyLoadReadsAboveTheZeroPage := by
  intro i s s' t t' hreg hi h h'
  refine ⟨fun f => ?zeroPage, fun src dst his => ?stored⟩
  case zeroPage =>
    obtain ⟨rfl, rfl⟩ | ⟨a, v, rfl, rfl⟩ := exec_same_write hreg hi h h'
    · exact hreg f
    · have hf : s.read (zeroPage f) = s'.read (zeroPage f) := hreg f
      simp only [State.reg, State.read_write, hf]
  case stored =>
    subst his
    rw [exec_s] at h h'
    cases h; cases h'
    simpa using hreg src

end Sys2Proof.Machine
end

section
/-! A step executes one instruction, or it changes no cell, no output and no breakpoint and does not
end in mode Running. What every step keeps (O32, O35, O37, a part of O33 and O34) follows by these
two cases. -/

namespace Sys2Proof.Machine

/-! ### The two kinds of step -/

/-- A step from `s` to `t` that executed no instruction: a fault, a breakpoint, a wait, or a command
of the debugger other than Continue. -/
structure NoInstruction (s t : State) : Prop where
  mem : t.mem = s.mem
  bp : t.bp = s.bp
  out : t.out = s.out
  mode : t.mode ≠ .running

/-- A step from `s` to `t` that executed `i`: its execute part took `u` to `v`, and steps 6 and 7
followed (R180). -/
structure InstructionStep (s t : State) (i : Instr) (u v : State) : Prop where
  start : ExecutesFrom s u
  decoded : decode (u.fetch u.pc) = .instr i
  executed : exec i u = .next v
  finished : t = v.finish u.pc

/-- The execute part starts from `s`, but for the mode and the Continue taken. -/
theorem ExecutesFrom.eq {s u : State} (h : ExecutesFrom s u) :
    ∃ rest, u = { s with mode := .running, cmds := rest } := by
  cases h with
  | running mode _ _ same => exact ⟨s.cmds, by rw [same, ← mode]⟩
  | continued rest _ _ _ same => exact ⟨rest, same⟩

theorem ExecutesFrom.mem {s u : State} (h : ExecutesFrom s u) : u.mem = s.mem := by
  obtain ⟨rest, rfl⟩ := h.eq; rfl

theorem ExecutesFrom.bp {s u : State} (h : ExecutesFrom s u) : u.bp = s.bp := by
  obtain ⟨rest, rfl⟩ := h.eq; rfl

theorem ExecutesFrom.out {s u : State} (h : ExecutesFrom s u) : u.out = s.out := by
  obtain ⟨rest, rfl⟩ := h.eq; rfl

/-- `ExecuteAt` at the PC of a state that `s` may execute from makes one of the two kinds of step. -/
theorem executeAt_kinds {s u t : State} (hmem : u.mem = s.mem) (hbp : u.bp = s.bp)
    (hout : u.out = s.out) (hstart : u.pc.toNat ≤ 0xFFFF → ExecutesFrom s u)
    (h : executeAt u.pc u = .next t) : NoInstruction s t ∨ ∃ i v, InstructionStep s t i u v := by
  obtain ⟨c, rfl⟩ | ⟨i, v, hr, hi, hv, ht⟩ := executeAt_cases h
  · exact .inl ⟨hmem, hbp, hout, by simp⟩
  · exact .inr ⟨i, v, hstart ((inRange_iff _).mp hr), hi, hv, ht⟩

/-- Every step is of one of the two kinds. -/
theorem step_kinds {s t : State} (h : step s = .next t) :
    NoInstruction s t ∨ ∃ i u v, InstructionStep s t i u v := by
  obtain ⟨-, -, rfl⟩ | ⟨hm, hb, hx⟩ | ⟨hm, -, rfl⟩ | ⟨r, hm, hc, hx⟩ | ⟨a, r, hm, -, rfl⟩ |
    ⟨r, -, -, rfl⟩ | ⟨r, hm, -, rfl⟩ := step_cases h
  · -- a breakpoint
    exact .inl ⟨rfl, rfl, rfl, by simp⟩
  · -- an instruction in mode Running
    have hstart (hpc : s.pc.toNat ≤ 0xFFFF) : ExecutesFrom s s :=
      .running hm hpc (fun hin => by simp [s.atBreakpoint_iff.mpr ⟨hpc, hin⟩] at hb) rfl
    exact (executeAt_kinds rfl rfl rfl hstart hx).imp_right fun ⟨i, v, hi⟩ => ⟨i, s, v, hi⟩
  · -- the host waits
    exact .inl ⟨rfl, rfl, rfl, by simp [hm]⟩
  · -- Continue
    have hstart (hpc : s.pc.toNat ≤ 0xFFFF) : ExecutesFrom s (s.takeCmd r).resume :=
      .continued r hm hpc hc rfl
    have hkind := executeAt_kinds (s := s) (u := (s.takeCmd r).resume) rfl rfl rfl hstart hx
    exact hkind.imp_right fun ⟨i, v, hi⟩ => ⟨i, _, v, hi⟩
  · -- Read
    exact .inl ⟨rfl, rfl, rfl, by simp [hm]⟩
  · -- Exit
    exact .inl ⟨rfl, rfl, rfl, by simp⟩
  · -- Invalid
    exact .inl ⟨rfl, rfl, rfl, by simp [hm]⟩

/-! ### The effect of an instruction's step -/

section
variable {s t u v : State} {i : Instr}

theorem InstructionStep.bp (h : InstructionStep s t i u v) : t.bp = s.bp := by
  rw [h.finished, State.finish_bp, (exec_beside h.executed).bp, h.start.bp]

/-- One byte more exactly when the execute part left WRITING nonzero (R195). -/
theorem InstructionStep.out (h : InstructionStep s t i u v) : t.out =
    if v.writing = 0#32 then s.out else s.out ++ [outputByte v.data] := by
  rw [h.finished, State.finish_out, (exec_beside h.executed).out, h.start.out]

theorem InstructionStep.writing (h : InstructionStep s t i u v) : t.writing = 0#32 := by
  rw [h.finished, State.finish_writing]

theorem InstructionStep.wf (h : InstructionStep s t i u v) (hs : s.mem.wf = true) :
    t.mem.wf = true := by
  rw [h.finished]
  exact v.finish_wf u.pc (exec_wf h.executed (h.start.mem ▸ hs))

/-- A cell above the zero page other than WRITING is changed by an S to it, and by nothing else
(R23, R50). -/
theorem InstructionStep.store_of_changed {a : Addr} (h : InstructionStep s t i u v)
    (ha : 0x00FF < a.toNat) (hw : a ≠ Config.writingAddr) (hne : t.read a ≠ s.read a) :
    ∃ src, i = .s src a ∧ t.read a = u.reg src := by
  have hpc : a ≠ Config.pcAddr := by rintro rfl; exact absurd ha (by decide)
  have ht : t.read a = v.read a := by rw [h.finished, State.read_finish _ _ hpc hw]
  rw [← State.read_congr h.start.mem, ht] at hne
  have hexec := h.executed
  obtain rfl | ⟨b, w, rfl, hb⟩ := exec_cases hexec
  · exact absurd rfl hne
  · obtain rfl : a = b := by_contra fun hab => hne (State.read_write_other _ _ hab)
    obtain hlt | ⟨src, rfl⟩ := hb
    · omega
    · rw [exec_s, Host.Outcome.next.injEq] at hexec
      exact ⟨src, rfl, by rw [ht, ← hexec, State.read_write_self]⟩

end

/-! ### What every step keeps -/

theorem step_keeps_bp {s t : State} (h : step s = .next t) : t.bp = s.bp := by
  obtain hn | ⟨i, u, v, hx⟩ := step_kinds h
  · exact hn.bp
  · exact hx.bp

theorem step_keeps_wf {s t : State} (h : step s = .next t) (hs : s.mem.wf = true) :
    t.mem.wf = true := by
  obtain hn | ⟨i, u, v, hx⟩ := step_kinds h
  · exact hn.mem ▸ hs
  · exact hx.wf hs

/-- Settles O37: every write keeps memory canonical, and no step changes the breakpoint set. -/
theorem everyStepKeepsTheInvariant : Obligations.EveryStepKeepsTheInvariant := by
  rintro s t ⟨hmem, hbp, hbase⟩ h
  have hsame := step_keeps_bp h
  exact ⟨step_keeps_wf h hmem, hsame ▸ hbp, hsame ▸ hbase⟩

/-- Settles O32: an executed instruction's strobe check clears WRITING, and a step without one ends
outside Running with every cell as it was. -/
theorem writingIsClearAtStepBoundaries : Obligations.WritingIsClearAtStepBoundaries := by
  intro s t h
  obtain hn | ⟨i, u, v, hx⟩ := step_kinds h
  · exact ⟨fun hrun => absurd hrun hn.mode, fun hs => (State.read_congr hn.mem _).trans hs⟩
  · exact ⟨fun _ => hx.writing, fun _ => hx.writing⟩

/-- Settles O35: a step that executes no instruction changes no cell, and of the instructions only S
writes above the zero page. -/
theorem onlyStoreWritesAboveTheZeroPage : Obligations.OnlyStoreWritesAboveTheZeroPage := by
  intro s t a h ha hw hne
  obtain hn | ⟨i, u, v, hx⟩ := step_kinds h
  · exact absurd (State.read_congr hn.mem a) hne
  · obtain ⟨src, rfl, hval⟩ := hx.store_of_changed ha hw hne
    exact ⟨u, src, hx.start, hx.decoded, hval⟩

end Sys2Proof.Machine
end

section
/-! What a step answers, as an equation per case of `ExecuteAt` and of the run loop (43_execution_cycle.md
R180, 60_exceptions.md R240 to R245): the converse of `executeAt_cases` and `step_cases`. -/

namespace Sys2Proof.Machine

variable {s : State}

/-! ### ExecuteAt -/

/-- No instruction stops in its execute part (R154, R180). -/
theorem exec_completes (i : Instr) (s : State) : ∃ t, exec i s = .next t := by
  cases i with
  | lp cond src dst =>
    by_cases hc : isPositive (s.reg cond) = true
    · exact ⟨_, exec_lp_positive s src dst hc⟩
    · exact ⟨_, exec_lp_not_positive s src dst hc⟩
  | _ => exact ⟨_, rfl⟩

/-- R182. -/
theorem executeAt_of_not_inRange {a : Word} (hr : ¬ inRange a = true) :
    executeAt a s = .next (s.raise (.outOfBounds a)) := if_neg hr

/-- R183. -/
theorem executeAt_of_unsupported {a : Word} {op : Byte} (hr : inRange a = true)
    (hd : decode (s.fetch a) = .unsupported op) :
    executeAt a s = .next (s.raise (.unsupportedVLE op)) := by
  simp only [executeAt, hr, hd, if_true]

/-- R184, D3. -/
theorem executeAt_of_illegal {a : Word} {op : Byte} (hr : inRange a = true)
    (hd : decode (s.fetch a) = .illegal op) :
    executeAt a s = .next (s.raise (.illegalOpcode op)) := by
  simp only [executeAt, hr, hd, if_true]

/-- R180, steps 5 to 7. -/
theorem executeAt_of_instr {a : Word} {i : Instr} {t : State} (hr : inRange a = true)
    (hd : decode (s.fetch a) = .instr i) (hx : exec i s = .next t) :
    executeAt a s = .next (t.finish a) := by
  simp only [executeAt, runInstr, hr, hd, hx, if_true]

/-! ### The run loop -/

theorem step_of_atBreakpoint (hm : s.mode = .running) (hb : s.atBreakpoint = true) :
    step s = .next s.enterDebugging := by
  simp only [step, stepRunning, hm, hb, if_true]

theorem step_of_not_atBreakpoint (hm : s.mode = .running) (hb : s.atBreakpoint = false) :
    step s = executeAt s.pc s := by
  simp [step, stepRunning, hm, hb]

theorem step_of_no_cmd (hm : s.mode = .debugging) (hc : s.cmds = []) : step s = .next s := by
  simp only [step, stepDebugging, hm, hc]

theorem step_of_cont {rest : List DbgCmd} (hm : s.mode = .debugging) (hc : s.cmds = .cont :: rest) :
    step s = executeAt s.pc (s.takeCmd rest).resume := by
  simp only [step, stepDebugging, hm, hc]

theorem step_of_read {a : Addr} {rest : List DbgCmd} (hm : s.mode = .debugging)
    (hc : s.cmds = .read a :: rest) : step s = .next ((s.takeCmd rest).answerRead a) := by
  simp only [step, stepDebugging, hm, hc]

theorem step_of_exit {rest : List DbgCmd} (hm : s.mode = .debugging) (hc : s.cmds = .exit :: rest) :
    step s = .next ((s.takeCmd rest).raise .debuggerExit) := by
  simp only [step, stepDebugging, hm, hc]

theorem step_of_invalid {rest : List DbgCmd} (hm : s.mode = .debugging)
    (hc : s.cmds = .invalid :: rest) : step s = .next (s.takeCmd rest) := by
  simp only [step, stepDebugging, hm, hc]

end Sys2Proof.Machine
end

section
/-! The state after load, and State.reset as the load of the empty image (10_state.md R36,
70_reset_and_hazards.md R260 to R263): O38, O40 and O41. -/

namespace Sys2Proof.Machine

/-! ### The state after load -/

/-- The state the loader answers for an image that fits (R261). -/
def loaded (image : List Word) (bp : List Addr) : State where
  mem := (storeImage [] Config.loadBase.toNat image).write Config.pcAddr 0x00008000#32
  mode := .running
  bp := bpOf bp
  out := []
  cmds := []
  events := []

section
variable (image : List Word) (bp : List Addr)

theorem load_of_fits (h : image.length ≤ 32768) : load image bp = .next (loaded image bp) :=
  if_pos (decide_eq_true h)

theorem load_of_too_long (h : 32768 < image.length) :
    load image bp = .fault (.outOfBounds 0x00010000#32) :=
  if_neg fun hfits => absurd (of_decide_eq_true hfits : image.length ≤ 32768) (by omega)

/-- Of the loader's two outcomes only the fitting image's is a state. -/
theorem eq_loaded_of_load {s : State} (h : load image bp = .next s) : s = loaded image bp := by
  by_cases hfits : image.length ≤ 32768
  · rw [load_of_fits image bp hfits] at h
    cases h; rfl
  · rw [load_of_too_long image bp (by omega)] at h
    cases h

theorem loaded_pc : (loaded image bp).pc = 0x00008000#32 := by
  unfold State.pc State.read loaded
  rw [Memory.read_write, if_pos rfl]

theorem read_loaded {a : Addr} (ha : a ≠ Config.pcAddr) :
    (loaded image bp).read a = (storeImage [] 0x8000 image).read a := by
  unfold State.read loaded
  rw [Memory.read_write, if_neg ha]; rfl

/-- R262. -/
theorem read_loaded_inside (h : image.length ≤ 32768) (i : Nat) (hi : i < image.length) :
    (loaded image bp).read (BitVec.ofNat 16 (0x8000 + i)) = image[i] := by
  have hne : BitVec.ofNat 16 (0x8000 + i) ≠ Config.pcAddr := by
    intro he
    have := congrArg BitVec.toNat he
    simp only [BitVec.toNat_ofNat, Config.pcAddr] at this
    omega
  rw [read_loaded image bp hne]
  exact read_storeImage_inside image [] 0x8000 i hi (by omega)

/-- R260, R262: beside the image and the PC memory is zero. -/
theorem read_loaded_outside (h : image.length ≤ 32768) (a : Addr) (ha : a ≠ Config.pcAddr)
    (hout : a.toNat < 0x8000 ∨ 0x8000 + image.length ≤ a.toNat) :
    (loaded image bp).read a = 0x00000000#32 := by
  rw [read_loaded image bp ha]
  exact read_storeImage_outside image [] 0x8000 a (by omega) hout

/-- R263. -/
theorem mem_loaded_bp (a : Addr) : a ∈ (loaded image bp).bp ↔ a = 0x8000#16 ∨ a ∈ bp :=
  mem_bpOf bp a

theorem loaded_inv : (loaded image bp).Inv := by
  have himage := wf_storeImage image (m := []) Config.loadBase.toNat rfl
  exact ⟨Memory.wf_write Config.pcAddr 0x00008000#32 himage, bpWf_bpOf bp,
    (mem_loaded_bp image bp _).mpr (.inl rfl)⟩

/-- The first step suspends at the implicit breakpoint (R181, R263). -/
theorem step_loaded : step (loaded image bp) = .next (loaded image bp).enterDebugging := by
  refine step_of_atBreakpoint rfl ((State.atBreakpoint_iff _).mpr ?_)
  rw [loaded_pc]
  exact ⟨by decide, (mem_loaded_bp image bp _).mpr (.inl (by decide))⟩

end

/-- Settles O40: each clause is a fact about `loaded`, the state the loader answers. -/
theorem loadGivesTheInitialState : Obligations.LoadGivesTheInitialState := by
  intro image bp
  refine ⟨fun h => ⟨loaded image bp, load_of_fits image bp h, loaded_inv image bp,
    loaded_pc image bp, read_loaded_inside image bp h, read_loaded_outside image bp h, rfl,
    mem_loaded_bp image bp, rfl, _, step_loaded image bp, rfl, rfl, rfl⟩, fun h s => ?tooLong⟩
  case tooLong => simp [load_of_too_long image bp h]

/-! ### Reset -/

/-- R36: reset is the load of the empty image. -/
theorem loaded_nil : loaded [] [] = State.reset := rfl

/-- Settles O38: the reset state is a loaded state. -/
theorem resetMeetsTheInvariant : Obligations.ResetMeetsTheInvariant := loaded_inv [] []

/-- Settles O41: the reset state is the loaded state of an image that reaches no cell. -/
theorem resetIsTheEmptyLoad : Obligations.ResetIsTheEmptyLoad := by
  refine ⟨load_of_fits [] [] (by simp), fun a => ?cell, rfl, rfl, rfl⟩
  case cell =>
    rw [← loaded_nil]
    split
    · subst a; exact loaded_pc [] []
    · exact read_loaded_outside [] [] (by simp) a ‹_› (by simp; omega)

end Sys2Proof.Machine
end

section
/-! A step commutes with replacing the breakpoint list by one with the same members and the past
output by any other (R31, R32): O33 and O34. -/

namespace Sys2Proof.Machine

/-- `s` with breakpoint list `l` and past output `o`. -/
def State.withBpOut (s : State) (l : List Addr) (o : List Byte) : State :=
  { s with bp := l, out := o }

/-- What the strobe check appends to the output (R195). -/
def State.strobeBytes (s : State) : List Byte :=
  if s.writing = 0#32 then [] else [outputByte s.data]

/-- `r` repeats the step from `s` to `t` with breakpoint list `l` and past output `o`: the same next
state but for these two, what that step appends to its output being appended to `o`. -/
def RepeatsStep (s t : State) (l : List Addr) (o : List Byte)
    (r : Host.Outcome State Fault Refusal) : Prop :=
  ∃ added, t.out = s.out ++ added ∧ r = .next (t.withBpOut l (o ++ added))

section
variable {s t : State} (l : List Addr) (o : List Byte)

/-! ### Steps 5 to 7 -/

theorem exec_withBpOut {i : Instr} (h : exec i s = .next t) :
    exec i (s.withBpOut l o) = .next (t.withBpOut l o) := by
  cases i with
  | lp cond src dst =>
    by_cases hc : isPositive (s.reg cond) = true
    · rw [exec_lp_positive s src dst hc] at h
      cases h; exact exec_lp_positive (s.withBpOut l o) src dst hc
    · rw [exec_lp_not_positive s src dst hc] at h
      cases h; exact exec_lp_not_positive (s.withBpOut l o) src dst hc
  | _ => cases h; rfl

theorem State.finish_out_append (s : State) (a : Word) :
    (s.finish a).out = s.out ++ s.strobeBytes := by
  rw [State.finish_out, State.strobeBytes]; split <;> simp

theorem State.strobe_withBpOut (s : State) :
    (s.withBpOut l o).strobe = s.strobe.withBpOut l (o ++ s.strobeBytes) := by
  by_cases hw : s.writing = 0#32
  · have hw' : (s.withBpOut l o).writing = 0#32 := hw
    simp only [State.strobe, State.strobeBytes, if_pos hw, if_pos hw', List.append_nil]
  · have hw' : ¬ (s.withBpOut l o).writing = 0#32 := hw
    simp only [State.strobe, State.strobeBytes, if_neg hw, if_neg hw']
    rfl

theorem State.advancePc_withBpOut (s : State) (a : Word) :
    (s.withBpOut l o).advancePc a = (s.advancePc a).withBpOut l o := by
  by_cases hpc : s.pc = a
  · have hpc' : (s.withBpOut l o).pc = a := hpc
    rw [State.advancePc, State.advancePc, if_pos hpc, if_pos hpc']; rfl
  · have hpc' : ¬ (s.withBpOut l o).pc = a := hpc
    rw [State.advancePc, State.advancePc, if_neg hpc, if_neg hpc']

theorem State.finish_withBpOut (s : State) (a : Word) :
    (s.withBpOut l o).finish a = (s.finish a).withBpOut l (o ++ s.strobeBytes) := by
  rw [State.finish, State.strobe_withBpOut, State.advancePc_withBpOut, State.finish]

/-! ### ExecuteAt and the step -/

theorem RepeatsStep.of_silent {r : Host.Outcome State Fault Refusal} (ht : t.out = s.out)
    (hr : r = .next (t.withBpOut l o)) : RepeatsStep s t l o r :=
  ⟨[], by rw [ht, List.append_nil], by rw [hr, List.append_nil]⟩

/-- `ExecuteAt` reads no breakpoint and no output. -/
theorem executeAt_withBpOut {a : Word} (h : executeAt a s = .next t) :
    RepeatsStep s t l o (executeAt a (s.withBpOut l o)) := by
  by_cases hr : inRange a = true
  · cases hd : decode (s.fetch a) with
    | unsupported op =>
      cases h.symm.trans (executeAt_of_unsupported hr hd)
      exact .of_silent l o rfl (executeAt_of_unsupported hr hd)
    | illegal op =>
      cases h.symm.trans (executeAt_of_illegal hr hd)
      exact .of_silent l o rfl (executeAt_of_illegal hr hd)
    | instr i =>
      obtain ⟨v, hv⟩ := exec_completes i s
      cases h.symm.trans (executeAt_of_instr hr hd hv)
      refine ⟨v.strobeBytes, ?_, ?_⟩
      · rw [State.finish_out_append, (exec_beside hv).out]
      · rw [← State.finish_withBpOut]
        exact executeAt_of_instr hr hd (exec_withBpOut l o hv)
  · cases h.symm.trans (executeAt_of_not_inRange hr)
    exact .of_silent l o rfl (executeAt_of_not_inRange hr)

/-- The breakpoint test observes membership alone (R31). -/
theorem State.atBreakpoint_withBpOut {l : List Addr} (hl : ∀ a, a ∈ l ↔ a ∈ s.bp) :
    (s.withBpOut l o).atBreakpoint = s.atBreakpoint := by
  rw [Bool.eq_iff_iff, State.atBreakpoint_iff, State.atBreakpoint_iff]
  exact and_congr_right fun _ => hl _

/-- A step observes of the breakpoint list its members, and of the past output nothing (R31, R32). -/
theorem step_withBpOut {l : List Addr} (hl : ∀ a, a ∈ l ↔ a ∈ s.bp) (h : step s = .next t) :
    RepeatsStep s t l o (step (s.withBpOut l o)) := by
  have hsame := State.atBreakpoint_withBpOut o hl
  obtain ⟨hm, hb, rfl⟩ | ⟨hm, hb, hx⟩ | ⟨hm, hc, rfl⟩ | ⟨r, hm, hc, hx⟩ | ⟨a, r, hm, hc, rfl⟩ |
    ⟨r, hm, hc, rfl⟩ | ⟨r, hm, hc, rfl⟩ := step_cases h
  · -- a breakpoint
    exact .of_silent l o rfl (step_of_atBreakpoint hm (hsame.trans hb))
  · -- an instruction in mode Running
    rw [step_of_not_atBreakpoint (s := s.withBpOut l o) hm (hsame.trans hb)]
    exact executeAt_withBpOut l o hx
  · -- the host waits
    exact .of_silent l o rfl (step_of_no_cmd hm hc)
  · -- Continue
    rw [step_of_cont (s := s.withBpOut l o) hm hc]
    exact executeAt_withBpOut l o hx
  · -- Read
    exact .of_silent l o rfl (step_of_read hm hc)
  · -- Exit
    exact .of_silent l o rfl (step_of_exit hm hc)
  · -- Invalid
    exact .of_silent l o rfl (step_of_invalid hm hc)

end

/-! ### The breakpoint set and the output -/

/-- Settles O33: no step writes BP, and the step repeats under any list with the same members. -/
theorem breakpointsAreAFixedSet : Obligations.BreakpointsAreAFixedSet := by
  refine ⟨fun s t h => ⟨step_keeps_bp h, fun l hl => ?members⟩, fun image bp s h => ?loadBase⟩
  case members =>
    obtain ⟨added, hadded, hstep⟩ := step_withBpOut s.out hl h
    rw [← hadded] at hstep
    exact hstep
  case loadBase =>
    rw [eq_loaded_of_load image bp h]
    exact (mem_loaded_bp image bp _).mpr (.inl rfl)

/-- Settles O34: only an instruction's strobe check outputs, and the step repeats after any past
output. -/
theorem outputIsAppendOnly : Obligations.OutputIsAppendOnly := by
  refine fun s t h => ⟨?appends, fun o => ?independent⟩
  case appends =>
    obtain hn | ⟨i, u, v, hx⟩ := step_kinds h
    · exact .inl hn.out
    · by_cases hw : v.writing = 0#32
      · exact .inl (hx.out.trans (if_pos hw))
      · exact .inr ⟨u, i, v, hx.start, hx.decoded, hx.executed, hw, hx.out.trans (if_neg hw)⟩
  case independent =>
    obtain ⟨added, hadded, hstep⟩ := step_withBpOut o (fun _ => Iff.rfl) h
    exact ⟨added, hadded, hstep.trans (by rw [← step_keeps_bp h]; rfl)⟩

end Sys2Proof.Machine
end

section
/-! The step that executes an instruction, as an equation from `ExecutesFrom` (43_execution_cycle.md
R180, R186), and a stored word executed by the very next step (20_memory.md R65): O25. -/

namespace Sys2Proof.Machine

variable {s u v : State} {i : Instr}

/-! ### The step that executes -/

theorem ExecutesFrom.mode (h : ExecutesFrom s u) : u.mode = .running := by
  obtain ⟨rest, rfl⟩ := h.eq; rfl

/-- The PC is a fetch address in range (R182). -/
theorem ExecutesFrom.range (h : ExecutesFrom s u) : inRange u.pc = true := by
  cases h with
  | running _ range _ same => rw [same]; exact (inRange_iff _).mpr range
  | continued _ _ range _ same => rw [same]; exact (inRange_iff _).mpr range

/-- A Machine in mode Running whose PC is in range and at no breakpoint executes (R180, R181). -/
theorem executesFrom_self (hm : s.mode = .running) (hr : inRange s.pc = true)
    (hb : cellOf s.pc ∉ s.bp) : ExecutesFrom s s :=
  .running hm ((inRange_iff _).mp hr) hb rfl

/-- Steps 3 to 7 run at the PC, in mode Running and after Continue alike (R180, R186). -/
theorem ExecutesFrom.step_eq (h : ExecutesFrom s u) : step s = executeAt u.pc u := by
  cases h with
  | running mode _ noBreak same =>
    subst same
    have hb : u.atBreakpoint = false :=
      Bool.eq_false_iff.mpr fun hat => noBreak (u.atBreakpoint_iff.mp hat).2
    exact step_of_not_atBreakpoint mode hb
  | continued rest mode _ cmd same => subst same; exact step_of_cont mode cmd

/-- A step that executes `i` is the execute part of `i` and then steps 6 and 7 (R180). -/
theorem ExecutesFrom.step_of_instr (h : ExecutesFrom s u) (hd : decode (u.fetch u.pc) = .instr i)
    (hx : exec i u = .next v) : step s = .next (v.finish u.pc) :=
  h.step_eq.trans (executeAt_of_instr h.range hd hx)

/-! ### The next cell -/

/-- The next address after one below 0xFFFF is still in range. -/
theorem inRange_succ {a : Word} (ha : a.toNat < 0xFFFF) : inRange (a + 1#32) = true := by
  rw [inRange_iff, BitVec.toNat_add]
  simp only [BitVec.toNat_ofNat]
  omega

/-- The cell after a fetch address below 0xFFFF is not the PC cell: addresses do not wrap there. -/
theorem cellOf_succ_ne_pc {a : Word} (ha : a.toNat < 0xFFFF) : cellOf (a + 1#32) ≠ Config.pcAddr := by
  intro h
  have hzero : (a.toNat + 1) % 2 ^ 32 % 2 ^ 16 = 0 := by
    simpa [cellOf, Config.pcAddr] using congrArg BitVec.toNat h
  omega

/-- The PC after an instruction that wrote another cell than the PC's (R190). -/
theorem State.finish_pc_of_write {a : Addr} (ha : a ≠ Config.pcAddr) (w : Word) :
    ((u.write a w).finish u.pc).pc = u.pc + 1#32 := by
  have hpc : (u.write a w).pc = u.pc := State.read_write_other u w ha.symm
  rw [State.finish_pc, if_pos hpc]

/-- A written cell after steps 6 and 7: the PC's and WRITING's apart, it keeps what was written. -/
theorem State.read_finish_of_write {a : Addr} (hp : a ≠ Config.pcAddr)
    (hw : a ≠ Config.writingAddr) (b w : Word) : ((u.write a w).finish b).read a = w := by
  rw [State.read_finish _ _ hp hw, State.read_write_self]

/-! ### A stored word -/

/-- Settles O25: after the S the PC names the cell it stored to, which keeps the stored word through
steps 6 and 7, so the next step fetches that word. -/
theorem storedWordIsExecutedNext : Obligations.StoredWordIsExecutedNext := by
  intro s u src i hs hpc hw hb hdS hdi
  have hp := cellOf_succ_ne_pc hpc
  let t := (u.write (cellOf (u.pc + 1#32)) (u.reg src)).finish u.pc
  have htpc : t.pc = u.pc + 1#32 := State.finish_pc_of_write hp _
  have htfetch : t.fetch t.pc = u.reg src := by
    rw [htpc]; exact State.read_finish_of_write hp hw _ _
  have ht : ExecutesFrom t t := by
    apply executesFrom_self
    · exact (State.finish_mode _ _).trans hs.mode
    · rw [htpc]; exact inRange_succ hpc
    · rw [htpc]; simpa [t] using hb
  refine ⟨t, hs.step_of_instr hdS (exec_s u src _), htpc, htfetch, fun v hx => ?_⟩
  exact ht.step_of_instr (by rw [htfetch]; exact hdi) hx

end Sys2Proof.Machine
end

section
/-! The codec: what each kind's decoder and the machine's decoder answer, `encode` as their exact
inverse, and the number of instruction words (30_encoding.md R80 to R95): O1 to O5. -/

namespace Sys2Proof

/-! ### The nine opcodes -/

theorem Kind.mem_all (k : Kind) : k ∈ Kind.all := by cases k <;> decide

/-- The assigned opcodes are those of the kinds (R85). -/
theorem mem_opcodes {op : Byte} : op ∈ Kind.all.map Kind.opcode ↔ ∃ k : Kind, k.opcode = op := by
  simp [Kind.mem_all]

/-- An opcode selects its own kind's decoder (R93). -/
@[simp] theorem kindOfOpcode_opcode (k : Kind) : kindOfOpcode k.opcode = some k := by
  cases k <;> decide

theorem kindOfOpcode_eq_some {op : Byte} {k : Kind} : kindOfOpcode op = some k ↔ k.opcode = op := by
  constructor
  · exact fun h => by simpa using List.find?_some h
  · rintro rfl; exact kindOfOpcode_opcode k

/-- Every instruction is one word long (R86). -/
@[simp] theorem isVle_opcode (k : Kind) : isVle k.opcode = false := by cases k <;> decide

theorem isVle_iff (op : Byte) : isVle op = true ↔ op.extractLsb' 0 2 = 0b11#2 := beq_iff_eq

/-! ### The decoders -/

section
variable {w : Word} {k : Kind} {i : Instr}

/-- R92, the leading byte right. -/
theorem decodeAs_of_opcode (h : byte0 w = k.opcode) : decodeAs k w = .ok (k.fields w) := if_pos h

/-- R92: the one condition of FormatViolation (R221). -/
theorem decodeAs_eq_error_iff : decodeAs k w = .error ⟨w, k⟩ ↔ byte0 w ≠ k.opcode := by
  constructor
  · intro h hop
    rw [decodeAs_of_opcode hop] at h
    cases h
  · exact fun hop => if_neg hop

/-- R93, R183: the length test comes first. -/
theorem decode_of_vle (h : isVle (byte0 w) = true) : decode w = .unsupported (byte0 w) := if_pos h

/-- R93, an assigned opcode. -/
theorem decode_of_opcode (h : byte0 w = k.opcode) : decode w = .instr (k.fields w) := by
  simp [decode, h]

/-- R93, R87: an unassigned opcode of one word. -/
theorem decode_of_unassigned (hv : isVle (byte0 w) = false)
    (h : byte0 w ∉ Kind.all.map Kind.opcode) : decode w = .illegal (byte0 w) := by
  have hnone : kindOfOpcode (byte0 w) = none :=
    Option.eq_none_iff_forall_ne_some.2 fun k hk => h (mem_opcodes.2 ⟨k, kindOfOpcode_eq_some.1 hk⟩)
  simp [decode, hv, hnone]

/-! ### Encoding a record and reading its fields back -/

@[simp] theorem kind_fields (k : Kind) (w : Word) : (k.fields w).kind = k := by cases k <;> rfl

/-- A record read from a word is packed back after its kind's opcode (R91). -/
theorem encode_fields (k : Kind) (w : Word) :
    encode (k.fields w) = packBytes k.opcode (byte1 w) (byte2 w) (byte3 w) := by
  cases k with
  | add | neg | and | or | xor | lp => rfl
  | l | s | li => simp [Kind.fields, encode, Kind.opcode]

theorem encode_fields_of_opcode (h : byte0 w = k.opcode) : encode (k.fields w) = w := by
  rw [encode_fields, ← h, packBytes_bytes]

/-- The word of a record has its operands where its kind's format reads them (R81 to R83). -/
theorem fields_encode (i : Instr) : i.kind.fields (encode i) = i := by
  cases i <;> simp [Instr.kind, Kind.fields, encode]

/-- The word of a record begins with its kind's opcode (R80). -/
theorem byte0_encode (i : Instr) : byte0 (encode i) = i.kind.opcode := by
  cases i with
  | add lhs rhs out => exact (Laws.OpcodeByte.add lhs rhs out).1
  | neg input out pad => exact (Laws.OpcodeByte.neg input out pad).1
  | and lhs rhs out => exact (Laws.OpcodeByte.and lhs rhs out).1
  | or lhs rhs out => exact (Laws.OpcodeByte.or lhs rhs out).1
  | xor lhs rhs out => exact (Laws.OpcodeByte.xor lhs rhs out).1
  | l src dst => exact (Laws.OpcodeByte.l src dst).1
  | s src dst => exact (Laws.OpcodeByte.s src dst).1
  | li addr imm => exact (Laws.OpcodeByte.li addr imm).1
  | lp cond src dst => exact (Laws.OpcodeByte.lp cond src dst).1

/-- R94 (1). -/
theorem decode_encode (i : Instr) : decode (encode i) = .instr i := by
  rw [decode_of_opcode (byte0_encode i), fields_encode]

/-- A word decodes to a record only by its opcode's kind (R93). -/
theorem decode_eq_instr (h : decode w = .instr i) :
    ∃ k : Kind, byte0 w = k.opcode ∧ i = k.fields w := by
  unfold decode at h
  split at h
  · cases h
  · split at h
    · cases h
      exact ⟨_, (kindOfOpcode_eq_some.1 ‹_›).symm, rfl⟩
    · cases h

/-- The decoder answers a record exactly for that record's word (R94 (1), (2)). -/
theorem decode_eq_instr_iff : decode w = .instr i ↔ encode i = w := by
  constructor
  · intro h
    obtain ⟨k, hop, rfl⟩ := decode_eq_instr h
    exact encode_fields_of_opcode hop
  · rintro rfl; exact decode_encode i

/-- R94 (3): a record is what its word decodes to. -/
theorem encode_injective : Function.Injective encode := by
  intro i j h
  have hd : Decoded.instr i = .instr j := by rw [← decode_encode i, h, decode_encode j]
  exact Decoded.instr.inj hd

/-- R94 (4): the image of `encode`. -/
theorem exists_encode_eq_iff : (∃ i, encode i = w) ↔ byte0 w ∈ Kind.all.map Kind.opcode := by
  rw [mem_opcodes]
  constructor
  · rintro ⟨i, rfl⟩; exact ⟨i.kind, (byte0_encode i).symm⟩
  · rintro ⟨k, hk⟩; exact ⟨k.fields w, encode_fields_of_opcode hk.symm⟩

end

/-! ### The number of instruction words -/

/-- A word as its four bytes (R7). -/
def wordBytes : Word ≃ Byte × Byte × Byte × Byte where
  toFun w := (byte0 w, byte1 w, byte2 w, byte3 w)
  invFun b := packBytes b.1 b.2.1 b.2.2.1 b.2.2.2
  left_inv w := packBytes_bytes w
  right_inv b := by simp

theorem card_byte : Nat.card Byte = 2 ^ 8 :=
  (Nat.card_congr BitVec.equivFin.toEquiv).trans (Nat.card_fin _)

/-- The three bytes after the opcode are free, so a set of opcodes has 2^24 words for each. -/
theorem card_byte0 (p : Byte → Prop) :
    Nat.card { w : Word // p (byte0 w) } = Nat.card { op : Byte // p op } * 2 ^ 24 := by
  calc Nat.card { w : Word // p (byte0 w) }
      = Nat.card { b : Byte × Byte × Byte × Byte // p b.1 } :=
        Nat.card_congr (wordBytes.subtypeEquiv fun _ => Iff.rfl)
    _ = Nat.card ({ op : Byte // p op } × Byte × Byte × Byte) :=
        Nat.card_congr Equiv.prodSubtypeFstEquivSubtypeProd
    _ = Nat.card { op : Byte // p op } * 2 ^ 24 := by simp only [Nat.card_prod, card_byte]; norm_num

/-- The nine opcodes are distinct (R85). -/
theorem card_opcodes : Nat.card { op : Byte // op ∈ Kind.all.map Kind.opcode } = 9 := by
  rw [Nat.subtype_card (Kind.all.map Kind.opcode).toFinset fun _ => List.mem_toFinset,
    List.toFinset_card_of_nodup (by decide)]
  rfl

/-- R94 (4), the count. -/
theorem card_encode_image : Nat.card { w : Word // ∃ i, encode i = w } = 9 * 2 ^ 24 := by
  simp only [exists_encode_eq_iff]
  rw [card_byte0 (· ∈ Kind.all.map Kind.opcode), card_opcodes]

/-! ### The obligations of the codec -/

/-- Settles O1: a word decodes to a record exactly when it is that record's encoding. -/
theorem codecExactInverses : Obligations.CodecExactInverses :=
  ⟨decode_encode, fun _ _ h => decode_eq_instr_iff.1 h, encode_injective,
    fun _ => exists_encode_eq_iff, card_encode_image⟩

/-- Settles O3: the length test, the nine opcodes and the rest are one equation of `decode` each. -/
theorem decodeDispatchesOnTheOpcodeByte : Obligations.DecodeDispatchesOnTheOpcodeByte := by
  intro w op b1 b2 b3
  refine ⟨fun h => decode_of_vle ((isVle_iff op).2 h),
    decode_of_opcode (k := .add), decode_of_opcode (k := .neg), decode_of_opcode (k := .and),
    decode_of_opcode (k := .or), decode_of_opcode (k := .xor), decode_of_opcode (k := .l),
    decode_of_opcode (k := .s), decode_of_opcode (k := .li), decode_of_opcode (k := .lp),
    fun hv hop => decode_of_unassigned ?oneWord hop, fun i h => ?ownDecoder⟩
  case oneWord => exact Bool.eq_false_iff.2 fun h => hv ((isVle_iff op).1 h)
  case ownDecoder =>
    obtain ⟨k, hop, rfl⟩ := decode_eq_instr h
    rw [kind_fields]
    exact decodeAs_of_opcode hop

/-- Settles O4: `decodeAs` is one test of the leading byte. -/
theorem kindDecodersCheckTheLeadingByte : Obligations.KindDecodersCheckTheLeadingByte :=
  ⟨fun _ _ => decodeAs_eq_error_iff, fun _ =>
    ⟨decodeAs_of_opcode (k := .add), decodeAs_of_opcode (k := .neg), decodeAs_of_opcode (k := .and),
      decodeAs_of_opcode (k := .or), decodeAs_of_opcode (k := .xor), decodeAs_of_opcode (k := .l),
      decodeAs_of_opcode (k := .s), decodeAs_of_opcode (k := .li),
      decodeAs_of_opcode (k := .lp)⟩⟩

/-- Settles O2: `packBytes` is the concatenation of R91, and `loByte` and `hiByte` its slices. -/
theorem encodePacksTheBytes : Obligations.EncodePacksTheBytes :=
  ⟨fun _ _ _ => rfl, fun _ _ _ => rfl, fun _ _ _ => rfl, fun _ _ _ => rfl, fun _ _ _ => rfl,
    fun _ _ => rfl, fun _ _ => rfl, fun _ _ => rfl, fun _ _ _ => rfl⟩

/-- Settles O5: the nine records are encoded, and decoding follows by O1. -/
theorem workedEncodingsBothWays : Obligations.WorkedEncodingsBothWays := by
  intro p hp
  have henc : encode p.1 = p.2 := by
    revert p
    decide
  exact ⟨henc, decode_eq_instr_iff.2 henc⟩

end Sys2Proof
end

section
/-! The assembler: the forms of a line, the record of a mnemonic, and what a whole text that assembles
gives (30_encoding.md R110 to R119): O43, O45, O46 and O47. -/

namespace Sys2Proof.Machine

/-! ### The forms of a line -/

section
variable {label : Option Token} {name m : Token} (ops : List Token)

/-- R112, a marker joined to the mnemonic. -/
theorem parseBody_marked (hm : m ≠ []) :
    parseBody label (('~' :: m) :: ops) = .ok ⟨label, true, m, ops⟩ := by
  cases m with
  | nil => exact absurd rfl hm
  | cons c rest => rfl

/-- R112, no marker. -/
theorem parseBody_unmarked (hm : m.head? ≠ some '~') :
    parseBody label (m :: ops) = .ok ⟨label, false, m, ops⟩ := by
  unfold parseBody
  split
  · cases ‹_ :: _ = []›
  · rename_i e; cases e; exact absurd rfl hm
  · rename_i e; cases e; exact absurd rfl hm
  · rename_i e; cases e; rfl

/-- A label has any name but an empty one or one with a digit first (R111, log 22). -/
theorem labelName_of (hn : name ≠ []) (hd : ∀ c, name.head? = some c → c.isDigit = false) :
    labelName name = .ok name := by
  cases name with
  | nil => exact absurd rfl hn
  | cons c rest => simp [labelName, hd c rfl]

/-- R111, a label first. -/
theorem parseLine_labelled (rest : List Token) (hn : name ≠ [])
    (hd : ∀ c, name.head? = some c → c.isDigit = false) :
    parseLine ((name ++ [':']) :: rest) = parseBody (some name) rest := by
  simp [parseLine, labelName_of hn hd]

/-- R111, no label. -/
theorem parseLine_unlabelled {t : Token} (rest : List Token) (ht : t.getLast? ≠ some ':') :
    parseLine (t :: rest) = parseBody none (t :: rest) := if_neg ht

end

/-- Settles O46: the first token is a label or not, and the rest a marked or an unmarked body. -/
theorem lineFormsAreTakenApart : Obligations.LineFormsAreTakenApart := by
  intro m ops hm
  refine ⟨fun name hn hd => ⟨fun hmark => ?_, ?_⟩, fun hlast => ⟨fun hmark => ?_, ?_⟩⟩
  · rw [parseLine_labelled _ hn hd, parseBody_unmarked ops hmark]
  · rw [parseLine_labelled _ hn hd, parseBody_marked ops hm]
  · rw [parseLine_unlabelled _ hlast, parseBody_unmarked ops hmark]
  · have hlast' : ('~' :: m).getLast? ≠ some ':' := by
      rwa [List.getLast?_cons_of_ne_nil hm]
    rw [parseLine_unlabelled _ hlast', parseBody_marked ops hm]

/-! ### The record of a line -/

/-- A mnemonic names its kind (R113). -/
theorem kindOfMnemonic_mnemonic (k : Kind) : kindOfMnemonic (Kind.mnemonic k) = .ok k := by
  cases k <;> rfl

section
variable {symbols : Symbols} {t : Token} {ts : List Token} {v : Nat} {vs : List Nat}

/-- Operands are evaluated left to right (R113). -/
theorem operandValues_cons (h : operandValue symbols t = .ok v)
    (hs : operandValues symbols ts = .ok vs) :
    operandValues symbols (t :: ts) = .ok (v :: vs) := by
  simp [operandValues, h, hs]

/-- A line's record is made of its kind and its operand values (R113). -/
theorem instrOf_mnemonic (k : Kind) (label : Option Token) (brk : Bool)
    (hs : operandValues symbols ts = .ok vs) :
    instrOf symbols ⟨label, brk, Kind.mnemonic k, ts⟩ = recordOf k vs := by
  simp [instrOf, kindOfMnemonic_mnemonic, hs]

end

/-- Settles O47: the operand values are those of the tokens in order, and `recordOf` cuts them. -/
theorem mnemonicsTakeTheirOperands : Obligations.MnemonicsTakeTheirOperands := by
  intro symbols label brk t1 t2 t3 a b c h1 h2 h3
  have hnil : operandValues symbols [] = .ok [] := rfl
  have two (k : Kind) := instrOf_mnemonic k label brk
    (operandValues_cons h1 (operandValues_cons h2 hnil))
  have three (k : Kind) := instrOf_mnemonic k label brk
    (operandValues_cons h1 (operandValues_cons h2 (operandValues_cons h3 hnil)))
  exact ⟨three .add, two .neg, three .and, three .or, three .xor, two .l, two .s, two .li, three .lp⟩

/-! ### A text that assembles -/

/-- Settles O43: each pass goes line by line. -/
theorem assemblyIsOneWordPerLine : Obligations.AssemblyIsOneWordPerLine := by
  intro text is bp h
  obtain ⟨ls, symbols, hls, hsym, his, rfl⟩ := assemble_ok h
  have hlen := (parseLines_get hls).1
  obtain ⟨hcount, hrecords⟩ := instrsOf_get his
  refine ⟨ls, symbols, hls, hsym, hlen, ?oneWordEach, fun n l hl => ?word, fun a => ?breakpoints⟩
  case oneWordEach => rw [imageOf, List.length_map, hcount, hlen]
  case word =>
    obtain ⟨i, hi, hget⟩ := hrecords n l hl
    exact ⟨i, hi, by simp [imageOf, hget]⟩
  case breakpoints => simpa only [Nat.zero_add] using mem_breakpointsOf ls 0 a

/-- Settles O45: a label is in the table at its own line's address, and the operand grammar looks up a
name that begins with neither a digit nor `:`. -/
theorem labelsNameTheirLines : Obligations.LabelsNameTheirLines := by
  intro text is bp h
  obtain ⟨ls, symbols, hls, hsym, -, -⟩ := assemble_ok h
  have htable (name : Token) (v : Nat) : symbols.lookup name = some v ↔
      ∃ (n : Nat) (l : AsmLine), ls[n]? = some l ∧ l.label = some name ∧ v = 0x8000 + n := by
    simpa using symbolsOf_lookup hsym name v
  refine ⟨ls, symbols, hls, hsym, htable, fun n l name hl hname hcolon => ?_⟩
  obtain ⟨ts, -, hparse⟩ := (parseLines_get hls).2 n l hl
  obtain ⟨c, rest, rfl, hdigit⟩ := parseLine_label hparse hname
  have hvalue : operandValue symbols (c :: rest) = .ok (0x8000 + n) :=
    operandValue_name (fun hc => hcolon (congrArg some hc)) hdigit
      ((htable _ _).2 ⟨n, l, hl, hname, rfl⟩)
  exact ⟨hvalue, (operandValue_colon symbols _).trans hvalue⟩

end Sys2Proof.Machine
end

section
/-! An instruction that writes one cell: the effect of its execute part and of its whole step, for any
cell and value (43_execution_cycle.md R180, R190, R195), and ADD, NEG, AND, OR and XOR as its cases
(40_alu.md R130 to R134): O6 to O10. -/

namespace Sys2Proof.Machine

/-! ### The effect of one write -/

section
variable (s : State) (a : Addr) (v : Word)

/-- The PC after a write: the value, when the cell is the PC's (R22, R24). -/
theorem State.pc_write : (s.write a v).pc = if a = Config.pcAddr then v else s.pc :=
  (s.read_write a Config.pcAddr v).trans (if_congr eq_comm rfl rfl)

theorem State.writing_write :
    (s.write a v).writing = if a = Config.writingAddr then v else s.writing :=
  (s.read_write a Config.writingAddr v).trans (if_congr eq_comm rfl rfl)

theorem State.data_write : (s.write a v).data = if a = Config.dataAddr then v else s.data :=
  (s.read_write a Config.dataAddr v).trans (if_congr eq_comm rfl rfl)

theorem oneCellSet_write : OneCellSet s (s.write a v) a v where
  value := s.read_write_self a v
  others _ hb := s.read_write_other v hb
  beside := ⟨rfl, rfl, rfl, rfl, rfl⟩

/-- Steps 6 and 7 after a write. -/
theorem stepEffect_write (hm : s.mode = .running) :
    StepEffect s ((s.write a v).finish s.pc) a v where
  pc := by
    rw [State.finish_pc, State.pc_write]
    by_cases ha : a = Config.pcAddr
    · by_cases hv : v = s.pc <;> simp [ha, hv]
    · simp [ha]
  cell hp hw := State.read_finish_of_write hp hw s.pc v
  others b hb hp hw := by rw [State.read_finish _ _ hp hw, State.read_write_other s v hb]
  writing := State.finish_writing _ _
  out := by rw [State.finish_out, State.writing_write, State.data_write, State.write_out]
  mode := (State.finish_mode _ _).trans hm
  bp := State.finish_bp _ _
  cmds := State.finish_cmds _ _
  events := State.finish_events _ _

end

/-! ### An instruction that writes one cell -/

section
variable {i : Instr} {a : Addr} {f : State → Word}

theorem exec_sets_of_write (hx : ∀ s, exec i s = .next (s.write a (f s))) (s : State) :
    ∃ t, exec i s = .next t ∧ OneCellSet s t a (f s) :=
  ⟨_, hx s, oneCellSet_write s a (f s)⟩

/-- In mode Running and after Continue alike (R180, R186). -/
theorem step_effect_of_write (hx : ∀ s, exec i s = .next (s.write a (f s))) (s u : State)
    (hs : ExecutesFrom s u) (hd : decode (u.fetch u.pc) = .instr i) :
    ∃ t, step s = .next t ∧ StepEffect u t a (f u) :=
  ⟨_, hs.step_of_instr hd (hx u), stepEffect_write u a (f u) hs.mode⟩

/-- The value's bits, with the effect of the execute part. -/
theorem exec_sets_bits_of_write (hx : ∀ s, exec i s = .next (s.write a (f s)))
    {bit : State → Nat → Bool} (hbit : ∀ s n, (f s).getLsbD n = bit s n) (s : State) :
    ∃ t v, exec i s = .next t ∧ OneCellSet s t a v ∧ ∀ n, v.getLsbD n = bit s n :=
  ⟨_, f s, hx s, oneCellSet_write s a (f s), hbit s⟩

end

/-! ### The five instructions -/

/-- The complement plus one is the two's-complement negation (R131). -/
theorem not_add_one_eq_ofNat (w : Word) :
    ~~~w + 0x00000001#32 = BitVec.ofNat 32 (2 ^ 32 - w.toNat) := by
  rw [← BitVec.neg_eq_not_add]
  exact BitVec.eq_of_toNat_eq ((BitVec.toNat_neg w).trans (BitVec.toNat_ofNat ..).symm)

/-- Settles O6: word addition is addition modulo 2^32, written to one cell. -/
theorem addWritesTheSum : Obligations.AddWritesTheSum := by
  refine ⟨fun _ => decode_of_opcode (k := .add), fun lhs rhs out => ?_⟩
  have hx (s : State) : exec (.add lhs rhs out) s =
      .next (s.write (zeroPage out) (BitVec.ofNat 32 ((s.reg lhs).toNat + (s.reg rhs).toNat))) := by
    rw [exec_add, BitVec.add_def, State.write_zeroPage]
  exact ⟨exec_sets_of_write hx, step_effect_of_write hx⟩

/-- Settles O7: the complement plus one, written to one cell; `pad` is not read. -/
theorem negWritesTheNegation : Obligations.NegWritesTheNegation := by
  refine ⟨fun _ => decode_of_opcode (k := .neg), fun input out pad => ?_⟩
  have hx (s : State) : exec (.neg input out pad) s =
      .next (s.write (zeroPage out) (BitVec.ofNat 32 (2 ^ 32 - (s.reg input).toNat))) := by
    rw [exec_neg, not_add_one_eq_ofNat, State.write_zeroPage]
  exact ⟨exec_sets_of_write hx, step_effect_of_write hx⟩

/-- Settles O8: the word-wise and, whose bits are the ands of the bits, written to one cell. -/
theorem andWritesTheConjunction : Obligations.AndWritesTheConjunction := by
  refine ⟨fun _ => decode_of_opcode (k := .and), fun lhs rhs out => ?_⟩
  have hx (s : State) := exec_and s lhs rhs out
  exact ⟨exec_sets_bits_of_write hx fun _ _ => BitVec.getLsbD_and, step_effect_of_write hx⟩

/-- Settles O9: the word-wise or, whose bits are the ors of the bits, written to one cell. -/
theorem orWritesTheDisjunction : Obligations.OrWritesTheDisjunction := by
  refine ⟨fun _ => decode_of_opcode (k := .or), fun lhs rhs out => ?_⟩
  have hx (s : State) := exec_or s lhs rhs out
  exact ⟨exec_sets_bits_of_write hx fun _ _ => BitVec.getLsbD_or, step_effect_of_write hx⟩

/-- Settles O10: the word-wise exclusive or, whose bits are the exclusive ors of the bits, written to
one cell. -/
theorem xorWritesTheDifference : Obligations.XorWritesTheDifference := by
  refine ⟨fun _ => decode_of_opcode (k := .xor), fun lhs rhs out => ?_⟩
  have hx (s : State) := exec_xor s lhs rhs out
  exact ⟨exec_sets_bits_of_write hx fun _ _ => BitVec.getLsbD_xor, step_effect_of_write hx⟩

end Sys2Proof.Machine
end

section
/-! The data movement instructions L, S and LI as writes of one cell (41_data_movement.md R150 to
R152): O11 to O13. -/

namespace Sys2Proof.Machine

/-- The zero-extended immediate is the word of the same value (R84, R152). -/
theorem immediate_eq_ofNat (imm : BitVec 16) : immediate imm = BitVec.ofNat 32 imm.toNat :=
  (BitVec.ofNat_toNat 32 imm).symm

/-- Settles O11: the cell at the full address, written to one zero-page cell. -/
theorem loadCopiesTheCell : Obligations.LoadCopiesTheCell := by
  refine ⟨fun _ => decode_of_opcode (k := .l), fun src dst => ?_⟩
  have hx (s : State) : exec (.l src dst) s = .next (s.write (zeroPage dst) (s.read src)) := by
    rw [exec_l, State.write_zeroPage]
  exact ⟨exec_sets_of_write hx, step_effect_of_write hx⟩

/-- Settles O12: the register, written to the one cell that the full address names. -/
theorem storeCopiesTheRegister : Obligations.StoreCopiesTheRegister := by
  refine ⟨fun _ => decode_of_opcode (k := .s), fun src dst => ?_⟩
  have hx (s : State) := exec_s s src dst
  exact ⟨exec_sets_of_write hx, step_effect_of_write hx⟩

/-- Settles O13: the immediate, zero-extended, written to one zero-page cell; no cell is read. -/
theorem loadImmediateZeroExtends : Obligations.LoadImmediateZeroExtends := by
  refine ⟨fun _ => decode_of_opcode (k := .li), fun addr imm => ?_⟩
  have hx (s : State) :
      exec (.li addr imm) s = .next (s.write (zeroPage addr) (BitVec.ofNat 32 imm.toNat)) := by
    rw [exec_li, immediate_eq_ofNat, State.write_zeroPage]
  exact ⟨exec_sets_of_write hx, step_effect_of_write hx⟩

end Sys2Proof.Machine
end

section
/-! The conditional move LP: the sign test by the top bit and zero, and the step of an instruction that
writes no cell (42_conditional_move.md R170): O14. -/

namespace Sys2Proof.Machine

/-! ### The condition -/

/-- A signed word is above 0 exactly when its top bit is 0 and it is not 0 (R8, R170). -/
theorem isPositive_iff (c : Word) : isPositive c = true ↔ c.msb = false ∧ c ≠ 0x00000000#32 := by
  have hmsb : c.msb = false ↔ 0 ≤ c.toInt := by
    rw [BitVec.msb_eq_toInt, decide_eq_false_iff_not, Int.not_lt]
  have hzero : c ≠ 0x00000000#32 ↔ c.toInt ≠ 0 := BitVec.toInt_ne.symm
  rw [isPositive, decide_eq_true_iff, hmsb, hzero]
  omega

/-- The condition fails by the top bit or by zero. -/
theorem not_isPositive_iff (c : Word) :
    ¬ isPositive c = true ↔ c.msb = true ∨ c = 0x00000000#32 := by
  rw [isPositive_iff, not_and_or, Bool.not_eq_false, not_not]

/-! ### A step that writes no cell -/

/-- Steps 6 and 7 after nothing was written: their effect is that of rewriting the PC cell with its own
value (R190). -/
theorem stepEffect_no_write (u : State) (hm : u.mode = .running) :
    StepEffect u (u.finish u.pc) Config.pcAddr u.pc where
  pc := by simp [State.finish_pc]
  cell hp := absurd rfl hp
  others _ _ hp hw := State.read_finish u u.pc hp hw
  writing := State.finish_writing u u.pc
  out := by
    have hw : Config.pcAddr ≠ Config.writingAddr := by decide
    have hd : Config.pcAddr ≠ Config.dataAddr := by decide
    rw [State.finish_out, if_neg hw, if_neg hd]
  mode := (State.finish_mode _ _).trans hm
  bp := State.finish_bp _ _
  cmds := State.finish_cmds _ _
  events := State.finish_events _ _

/-! ### LP -/

/-- Settles O14: a copy is one write to a zero-page cell; without it the state goes to steps 6 and 7 as
it was. -/
theorem loadIfPositiveCopiesOrNot : Obligations.LoadIfPositiveCopiesOrNot := by
  refine ⟨fun _ => decode_of_opcode (k := .lp), fun cond src dst => ⟨?copies, ?keeps, ?stepped⟩⟩
  case copies =>
    intro s hsign hzero
    have hpos := (isPositive_iff _).mpr ⟨hsign, hzero⟩
    exact ⟨_, exec_lp_positive s src dst hpos, oneCellSet_write s (zeroPage dst) (s.reg src)⟩
  case keeps =>
    exact fun s hc => exec_lp_not_positive s src dst ((not_isPositive_iff _).mpr hc)
  case stepped =>
    intro s u hs hd
    by_cases hpos : isPositive (u.reg cond) = true
    · refine ⟨_, hs.step_of_instr hd (exec_lp_positive u src dst hpos), fun _ _ => ?_, fun hc => ?_⟩
      · exact stepEffect_write u (zeroPage dst) (u.reg src) hs.mode
      · exact absurd hpos ((not_isPositive_iff _).mpr hc)
    · refine ⟨_, hs.step_of_instr hd (exec_lp_not_positive u src dst hpos), fun hsign hzero => ?_,
        fun _ => ?_⟩
      · exact absurd ((isPositive_iff _).mpr ⟨hsign, hzero⟩) hpos
      · exact stepEffect_no_write u hs.mode

end Sys2Proof.Machine
end

section
/-! What the step that executes an instruction leaves in the output, WRITING and the PC
(43_execution_cycle.md R180, R190, R195, R197), and where the jump idioms go (R192 to R194): O16,
O18, O19, O20 and O22. -/

namespace Sys2Proof.Machine

section
variable {s u t : State} {i : Instr}

/-! ### Steps 6 and 7 after the execute part -/

/-- The output, from the state the execute part started in (R195). -/
theorem finish_out_of_exec (hx : exec i u = .next t) : (t.finish u.pc).out =
    if t.writing = 0#32 then u.out else u.out ++ [outputByte t.data] := by
  rw [State.finish_out, (exec_beside hx).out]

/-- The address after a fetch address in range is one more: the sum does not overflow (R190, D5). -/
theorem toNat_succ_of_inRange {a : Word} (ha : inRange a = true) :
    (a + 1#32).toNat = a.toNat + 1 := by
  rw [inRange_iff] at ha
  exact BitVec.toNat_add_of_lt (show a.toNat + 1 < 2 ^ 32 by omega)

/-- WRITING is read from the memory the execute part starts from. -/
theorem ExecutesFrom.writing (h : ExecutesFrom s u) : u.writing = s.writing :=
  State.read_congr h.mem _

/-- The PC after a step whose execute part left `target` in the PC cell (R190, R271). -/
theorem ExecutesFrom.jumps {target : Word} (h : ExecutesFrom s u)
    (hd : decode (u.fetch u.pc) = .instr i) (hx : exec i u = .next t) (hpc : t.pc = target) :
    ∃ v, step s = .next v ∧ v.pc = if target = u.pc then u.pc + 1#32 else target :=
  ⟨_, h.step_of_instr hd hx, by rw [State.finish_pc, hpc]⟩

/-- A write to register 0 is a write to the PC (R22). -/
theorem State.pc_setReg_zero (s : State) (v : Word) : (s.setReg 0x00#8 v).pc = v :=
  s.read_write_self Config.pcAddr v

end

/-! ### The obligations -/

/-- Settles O16: `executeAt` at the PC, with the word decoded and executed. -/
theorem stepRunsTheDecodedInstruction : Obligations.StepRunsTheDecodedInstruction :=
  fun _ _ _ _ hs hd hx => hs.step_of_instr hd hx

/-- Settles O18: the strobe check is the only one of steps 6 and 7 that writes WRITING or outputs,
and neither writes DATA. -/
theorem strobeCheckTestsTheLevel : Obligations.StrobeCheckTestsTheLevel := by
  intro s u t i hs hd hx
  have hout := finish_out_of_exec hx
  have hclear := t.finish_writing u.pc
  have hdata : (t.finish u.pc).data = t.data := t.read_finish u.pc (by decide) (by decide)
  exact ⟨_, hs.step_of_instr hd hx, fun hw => ⟨hout.trans (if_neg hw), hclear⟩,
    fun hw => ⟨hout.trans (if_pos hw), hclear⟩, hdata⟩

/-- Settles O19: the PC advance is the only one of steps 6 and 7 that writes the PC, and a fetch
address in range has a successor of 32 bits. -/
theorem pcAdvanceComparesValues : Obligations.PcAdvanceComparesValues := by
  intro s u t i hs hd hx
  have hpc := t.finish_pc u.pc
  refine ⟨_, hs.step_of_instr hd hx, fun heq => ?advances, fun hne => hpc.trans (if_neg hne)⟩
  case advances =>
    have hsucc : (t.finish u.pc).read 0x0000#16 = u.pc + 1#32 := hpc.trans (if_pos heq)
    exact ⟨hsucc, hsucc ▸ toNat_succ_of_inRange hs.range⟩

/-- Settles O20: the strobe check clears WRITING, so the next strobe check finds it 0 unless the
instruction between them writes it. -/
theorem sourceOutputCaseEmitsOneByte : Obligations.SourceOutputCaseEmitsOneByte := by
  intro s u t i hs hd hx hdata hwriting
  have hclear := t.finish_writing u.pc
  refine ⟨_, hs.step_of_instr hd hx, ?oneByte, hclear, fun u' t' j hs' hd' hx' hkept => ?silent⟩
  case oneByte =>
    rw [finish_out_of_exec hx, hwriting, hdata]
    rfl
  case silent =>
    have hw : t'.writing = 0#32 := hkept.trans (hs'.writing.trans hclear)
    refine ⟨_, hs'.step_of_instr hd' hx', ?_⟩
    rw [finish_out_of_exec hx', if_pos hw, hs'.out]

/-- Settles O22: the execute part of each idiom leaves the target in register 0, which is the PC
cell, or, when LP's condition fails, leaves the PC as it is. -/
theorem controlTransferIdioms : Obligations.ControlTransferIdioms := by
  intro s u hs jumpsTo
  refine ⟨fun m hd => ?li, fun m hd => ?l, fun r hd => ?s, fun r hd => ?and, fun r hd => ?or,
    fun r hd => ?add, fun c f hd => ?lp⟩
  case li =>
    exact hs.jumps hd (exec_li u _ m) ((u.pc_setReg_zero _).trans (immediate_eq_ofNat m))
  case l => exact hs.jumps hd (exec_l u m _) (u.pc_setReg_zero _)
  case s => exact hs.jumps hd (exec_s u r _) (u.pc_setReg_zero _)
  case and =>
    exact hs.jumps hd (exec_and u r r _) ((u.pc_setReg_zero _).trans BitVec.and_self)
  case or =>
    exact hs.jumps hd (exec_or u r r _) ((u.pc_setReg_zero _).trans BitVec.or_self)
  case add =>
    exact hs.jumps hd (exec_add u _ r _) ((u.pc_setReg_zero _).trans (BitVec.add_def ..))
  case lp =>
    by_cases hc : 0 < (u.reg c).toInt
    · rw [if_pos hc]
      exact hs.jumps hd (exec_lp_positive u f _ (decide_eq_true hc)) (u.pc_setReg_zero _)
    · rw [if_neg hc]
      exact hs.jumps hd (exec_lp_not_positive u f _ (mt of_decide_eq_true hc)) rfl

end Sys2Proof.Machine
end

section
/-! The step of the run loop, mode by mode (43_execution_cycle.md R180, R181, R186, R200): O17, O21,
O29 and O30. -/

namespace Sys2Proof.Machine

section
variable {s t : State}

/-! ### The effects by name -/

theorem faultEffect_raise (s : State) (c : Fault) : FaultEffect s (s.raise c) c :=
  ⟨rfl, rfl, rfl, rfl, rfl, rfl⟩

theorem finishEffect_finish (a : Word) (t : State) : FinishEffect a t (t.finish a) where
  pc := t.finish_pc a
  writing := t.finish_writing a
  out := t.finish_out a
  others _ hp hw := t.read_finish a hp hw
  mode := t.finish_mode a
  bp := t.finish_bp a
  cmds := t.finish_cmds a
  events := t.finish_events a

/-! ### The breakpoint test in mode Running -/

/-- The failed test of step 2 (R181): a PC above 0xFFFF matches no breakpoint. -/
theorem State.not_atBreakpoint_iff (s : State) :
    s.atBreakpoint = false ↔ (s.pc.toNat ≤ 0xFFFF → cellOf s.pc ∉ s.bp) := by
  rw [← Bool.not_eq_true, State.atBreakpoint_iff, not_and]

/-- R181. -/
theorem step_of_mem_bp (hm : s.mode = .running) (hpc : s.pc.toNat ≤ 0xFFFF)
    (hb : cellOf s.pc ∈ s.bp) : step s = .next s.enterDebugging :=
  step_of_atBreakpoint hm (s.atBreakpoint_iff.mpr ⟨hpc, hb⟩)

theorem step_of_not_mem_bp (hm : s.mode = .running) (hb : cellOf s.pc ∉ s.bp) :
    step s = executeAt s.pc s :=
  step_of_not_atBreakpoint hm (s.not_atBreakpoint_iff.mpr fun _ => hb)

/-- A PC above 0xFFFF faults, whatever the breakpoints (R181, R182, D4). -/
theorem step_of_pc_out_of_range (hm : s.mode = .running) (hpc : 0xFFFF < s.pc.toNat) :
    step s = .next (s.raise (.outOfBounds s.pc)) := by
  have hr : ¬ s.pc.toNat ≤ 0xFFFF := Nat.not_le_of_lt hpc
  rw [step_of_not_atBreakpoint hm (s.not_atBreakpoint_iff.mpr fun h => absurd h hr)]
  exact executeAt_of_not_inRange (mt (inRange_iff _).mp hr)

/-! ### How a step ends -/

/-- The three fatal faults a step can raise (R200, R220). -/
def Fault.ofStep (c : Fault) : Prop :=
  (∃ a, c = .outOfBounds a) ∨ (∃ op, c = .unsupportedVLE op) ∨ ∃ op, c = .illegalOpcode op

/-- `ExecuteAt` always completes: by raising one of the three faults, or by running an instruction
and steps 6 and 7 (R180, R185). -/
theorem executeAt_answers (a : Word) (s : State) :
    (∃ c, c.ofStep ∧ executeAt a s = .next (s.raise c)) ∨
      ∃ i t, exec i s = .next t ∧ executeAt a s = .next (t.finish a) := by
  by_cases hr : inRange a = true
  · cases hd : decode (s.fetch a) with
    | unsupported op => exact .inl ⟨_, .inr (.inl ⟨op, rfl⟩), executeAt_of_unsupported hr hd⟩
    | illegal op => exact .inl ⟨_, .inr (.inr ⟨op, rfl⟩), executeAt_of_illegal hr hd⟩
    | instr i =>
      obtain ⟨t, hx⟩ := exec_completes i s
      exact .inr ⟨i, t, hx, executeAt_of_instr hr hd hx⟩
  · exact .inl ⟨_, .inl ⟨a, rfl⟩, executeAt_of_not_inRange hr⟩

theorem executeAt_completes (a : Word) (s : State) : ∃ t, executeAt a s = .next t := by
  obtain ⟨c, -, h⟩ | ⟨i, t, -, h⟩ := executeAt_answers a s <;> exact ⟨_, h⟩

/-- Started in mode Running, `ExecuteAt` ends in Halted only by one of the three faults. -/
theorem executeAt_halted {a : Word} {c : Fault} (hm : s.mode = .running)
    (h : executeAt a s = .next t) (hc : t.mode = .halted c) : c.ofStep := by
  obtain ⟨c', hc', h'⟩ | ⟨i, v, hx, h'⟩ := executeAt_answers a s
  · cases h.symm.trans h'
    cases hc
    exact hc'
  · cases h.symm.trans h'
    rw [State.finish_mode, (exec_beside hx).mode, hm] at hc
    cases hc

/-- R232, log 4. -/
theorem step_of_halted {c : Fault} (hm : s.mode = .halted c) : step s = .fault c := by
  simp only [step, hm]

/-- A step answers a fault in mode Halted alone, its cause, and otherwise a next state (R232, log
4). -/
theorem step_answers (s : State) :
    (∃ c, s.mode = .halted c ∧ step s = .fault c) ∨ ∃ t, step s = .next t := by
  cases hm : s.mode with
  | running =>
    right
    cases hb : s.atBreakpoint with
    | true => exact ⟨_, step_of_atBreakpoint hm hb⟩
    | false => rw [step_of_not_atBreakpoint hm hb]; exact executeAt_completes _ _
  | debugging =>
    right
    cases hc : s.cmds with
    | nil => exact ⟨_, step_of_no_cmd hm hc⟩
    | cons cmd rest =>
      cases cmd with
      | cont => rw [step_of_cont hm hc]; exact executeAt_completes _ _
      | read a => exact ⟨_, step_of_read hm hc⟩
      | exit => exact ⟨_, step_of_exit hm hc⟩
      | invalid => exact ⟨_, step_of_invalid hm hc⟩
  | halted c => exact .inl ⟨c, rfl, step_of_halted hm⟩

/-- A step enters Halted by one of the three faults, or by the debugger's exit (R200, R244). -/
theorem step_halted {c : Fault} (h : step s = .next t) (hc : t.mode = .halted c) :
    c.ofStep ∨ (c = .debuggerExit ∧ s.mode = .debugging ∧ ∃ rest, s.cmds = .exit :: rest) := by
  obtain ⟨-, -, rfl⟩ | ⟨hm, -, hx⟩ | ⟨hm, -, rfl⟩ | ⟨r, -, -, hx⟩ | ⟨a, r, hm, -, rfl⟩ |
    ⟨r, hm, hcmd, rfl⟩ | ⟨r, hm, -, rfl⟩ := step_cases h
  · -- a breakpoint
    cases hc
  · -- an instruction in mode Running
    exact .inl (executeAt_halted hm hx hc)
  · -- the host waits
    cases hm.symm.trans hc
  · -- Continue
    exact .inl (executeAt_halted rfl hx hc)
  · -- Read
    cases hm.symm.trans hc
  · -- Exit
    cases hc
    exact .inr ⟨rfl, hm, r, hcmd⟩
  · -- Invalid
    cases hm.symm.trans hc

end

/-! ### The obligations -/

/-- Settles O17: the breakpoint test, the range test and the decoder's answer select the equation of
the step. -/
theorem runningStepAlgorithm : Obligations.RunningStepAlgorithm := by
  intro s hm
  refine ⟨fun hpc hb => ?breakpoint, fun hpc => ?outOfBounds, fun hpc hb => ?executes⟩
  case breakpoint =>
    exact ⟨_, step_of_mem_bp hm hpc hb, rfl, rfl, rfl, rfl, rfl, rfl⟩
  case outOfBounds => exact ⟨_, step_of_pc_out_of_range hm hpc, faultEffect_raise s _⟩
  case executes =>
    intro w op
    have hstep := step_of_not_mem_bp hm hb
    have hr := (inRange_iff s.pc).mpr hpc
    refine ⟨fun hv => ?unsupported, fun _ hd => ?illegal, fun i hd => ?instr⟩
    case unsupported =>
      have hd : decode (s.fetch s.pc) = .unsupported op := decode_of_vle ((isVle_iff op).mpr hv)
      exact ⟨_, hstep.trans (executeAt_of_unsupported hr hd), faultEffect_raise s _⟩
    case illegal => exact ⟨_, hstep.trans (executeAt_of_illegal hr hd), faultEffect_raise s _⟩
    case instr =>
      obtain ⟨t, hx⟩ := exec_completes i s
      exact ⟨t, _, hx, hstep.trans (executeAt_of_instr hr hd hx), finishEffect_finish s.pc t⟩

/-- Settles O21: every mode but Halted has a next state, and only `raise` enters Halted. -/
theorem runsEndOnlyByFaultOrExit : Obligations.RunsEndOnlyByFaultOrExit := by
  refine ⟨fun s => ⟨fun r hr => ?notRefused, fun c => ⟨fun hf => ?halted, step_of_halted⟩⟩,
    fun s t c h hc => ?cause⟩
  case notRefused =>
    obtain ⟨c, -, h⟩ | ⟨t, h⟩ := step_answers s <;> cases hr.symm.trans h
  case halted =>
    obtain ⟨c', hm, h⟩ | ⟨t, h⟩ := step_answers s <;> cases hf.symm.trans h
    exact hm
  case cause =>
    obtain (hbounds | hvle | hillegal) | hexit := step_halted h hc
    · exact .inl hbounds
    · exact .inr (.inl hvle)
    · exact .inr (.inr (.inl hillegal))
    · exact .inr (.inr (.inr hexit))

/-- Settles O29: the breakpoint test reads the PC and BP alone, and comes before the fetch. -/
theorem breakpointSuspendsBeforeTheInstruction :
    Obligations.BreakpointSuspendsBeforeTheInstruction :=
  fun s hm => ⟨step_of_mem_bp hm, fun hpc => ⟨_, step_of_pc_out_of_range hm hpc, s.raise_mode _⟩⟩

/-- Settles O30: both steps are `ExecuteAt` at the same PC, which reads no breakpoint. -/
theorem continueSkipsTheBreakpointTest : Obligations.ContinueSkipsTheBreakpointTest := by
  intro s t rest hm hc h
  rw [step_of_not_mem_bp rfl List.not_mem_nil] at h
  obtain ⟨added, hadded, hstep⟩ := executeAt_withBpOut s.bp s.out h
  rw [← hadded] at hstep
  exact (step_of_cont hm hc).trans hstep

end Sys2Proof.Machine
end

section
/-! The placed word of `withFetchWord` and the step that executes it (43_execution_cycle.md R180,
R186, 70_reset_and_hazards.md R262, log 16): O42. -/

namespace Sys2Proof.Machine

/-! ### The PC of the placed word -/

theorem placeable_iff (a : Word) : placeable a = true ↔ a.toNat ≤ 0xFFFF ∧ a ≠ 0#32 := by
  rw [placeable, Bool.and_eq_true, inRange_iff, decide_eq_true_iff]

/-- A word is never placed at the PC cell (R274). -/
theorem cellOf_ne_pcAddr {a : Word} (ha : placeable a = true) : cellOf a ≠ Config.pcAddr := by
  intro hcell
  obtain ⟨hrange, hne⟩ := (placeable_iff a).mp ha
  have hzero : a.toNat % 2 ^ 16 = 0 := by
    simpa [cellOf, Config.pcAddr] using congrArg BitVec.toNat hcell
  have hnonzero : a.toNat ≠ 0 := fun h => hne (BitVec.eq_of_toNat_eq h)
  omega

section
variable (s : State)

/-- At most a cell changes: nothing beside memory does. -/
theorem State.withPlaceablePc_beside : SameBesideMemory s s.withPlaceablePc := by
  unfold State.withPlaceablePc
  split <;> exact ⟨rfl, rfl, rfl, rfl, rfl⟩

theorem State.placeable_withPlaceablePc : placeable s.withPlaceablePc.pc = true := by
  unfold State.withPlaceablePc
  split
  · assumption
  · have hpc : (s.setPc 0x00008000#32).pc = 0x00008000#32 := s.read_write_self _ _
    rw [hpc]
    decide

/-- With its PC in range, the state made ready executes the word at its PC (R180, R186). -/
theorem State.executesFrom_readyToExecute (hr : s.pc.toNat ≤ 0xFFFF) :
    ExecutesFrom s.readyToExecute s.resume := by
  unfold State.readyToExecute
  split
  · rename_i hready
    obtain ⟨hm, hb⟩ := hready
    exact .running hm hr (s.not_atBreakpoint_iff.mp hb hr) (by rw [State.resume, ← hm])
  · exact .continued s.cmds rfl hr rfl rfl

end

/-- Settles O42: the word lands at the cell the PC names, which is not the PC, so the PC still names
it when the next step executes. -/
theorem placedWordIsExecutedNext : Obligations.PlacedWordIsExecutedNext := by
  intro s nbits w
  let p := s.withPlaceablePc
  let q := p.write (cellOf p.pc) (tableWord nbits w)
  have hplace : placeable p.pc = true := s.placeable_withPlaceablePc
  have hpc : q.pc = p.pc := p.read_write_other _ (cellOf_ne_pcAddr hplace).symm
  have hfetch : q.fetch q.pc = tableWord nbits w := by rw [hpc]; exact p.read_write_self _ _
  have hrange : q.pc.toNat ≤ 0xFFFF := by rw [hpc]; exact ((placeable_iff _).mp hplace).1
  obtain ⟨-, hbp, hout, hcmds, hevents⟩ := s.withPlaceablePc_beside
  exact ⟨q.resume, q.executesFrom_readyToExecute hrange, hfetch, hbp, hout, hcmds, hevents⟩

end Sys2Proof.Machine
end

section
/-! Fatal faults, the end in Halted, and the debugger's commands (60_exceptions.md R222 to R224, R231,
R232, R243 to R246): O26, O27, O28 and O31. -/

namespace Sys2Proof.Machine

variable {s t u : State}

/-! ### A fetched word that is no instruction -/

section
variable {op : Byte}

/-- R183, R222. -/
theorem ExecutesFrom.step_of_unsupported (h : ExecutesFrom s u)
    (hd : decode (u.fetch u.pc) = .unsupported op) :
    ∃ t, step s = .next t ∧ FaultEffect u t (.unsupportedVLE op) :=
  ⟨_, h.step_eq.trans (executeAt_of_unsupported h.range hd), faultEffect_raise u _⟩

/-- R184, R224. -/
theorem ExecutesFrom.step_of_illegal (h : ExecutesFrom s u)
    (hd : decode (u.fetch u.pc) = .illegal op) :
    ∃ t, step s = .next t ∧ FaultEffect u t (.illegalOpcode op) :=
  ⟨_, h.step_eq.trans (executeAt_of_illegal h.range hd), faultEffect_raise u _⟩

end

/-- After Continue a PC above 0xFFFF faults as it does in mode Running (R182, R223). -/
theorem step_of_cont_out_of_range {rest : List DbgCmd} (hm : s.mode = .debugging)
    (hc : s.cmds = .cont :: rest) (hpc : 0xFFFF < s.pc.toNat) :
    step s = .next ((s.takeCmd rest).resume.raise (.outOfBounds s.pc)) :=
  (step_of_cont hm hc).trans
    (executeAt_of_not_inRange (mt (inRange_iff _).mp (Nat.not_le_of_lt hpc)))

/-! ### The step that enters Halted -/

/-- From mode Running only `raise` leads to Halted: steps 5 to 7 leave the mode alone (R180, R185). -/
theorem eq_raise_of_executeAt_halted {a : Word} {c : Fault} (hm : s.mode = .running)
    (h : executeAt a s = .next t) (hc : t.mode = .halted c) : t = s.raise c := by
  obtain ⟨c', rfl⟩ | ⟨i, v, -, -, hx, rfl⟩ := executeAt_cases h
  · cases hc; rfl
  · rw [State.finish_mode, (exec_beside hx).mode, hm] at hc
    cases hc

/-- A step that enters Halted has the effect of `raise` alone, after the command it took, if any
(R231, R244). -/
theorem step_halted_effect {c : Fault} (h : step s = .next t) (hc : t.mode = .halted c) :
    ∃ cmds, FaultEffect (s.takeCmd cmds) t c := by
  obtain ⟨-, -, rfl⟩ | ⟨hm, -, hx⟩ | ⟨hm, -, rfl⟩ | ⟨r, -, -, hx⟩ | ⟨a, r, hm, -, rfl⟩ |
    ⟨r, -, -, rfl⟩ | ⟨r, hm, -, rfl⟩ := step_cases h
  · -- a breakpoint
    cases hc
  · -- an instruction in mode Running
    obtain rfl := eq_raise_of_executeAt_halted hm hx hc
    exact ⟨s.cmds, faultEffect_raise s c⟩
  · -- the host waits
    cases hm.symm.trans hc
  · -- Continue
    obtain rfl := eq_raise_of_executeAt_halted rfl hx hc
    exact ⟨r, rfl, rfl, rfl, rfl, rfl, rfl⟩
  · -- Read
    cases hm.symm.trans hc
  · -- Exit
    cases hc
    exact ⟨r, faultEffect_raise _ _⟩
  · -- Invalid
    cases hm.symm.trans hc

/-! ### The obligations -/

/-- Settles O26: the decoder's answer and the range test select the fault, no execute part stops, and
the loader's one fault is OutOfBounds. -/
theorem fatalFaultsByCause : Obligations.FatalFaultsByCause := by
  refine ⟨fun s u h => ⟨fun hv => ?unsupported, fun hv hop => ?illegal⟩,
    fun s hpc => ⟨fun hm => ?running, fun rest hm hc => ?continued⟩,
    fun i s a hx => ?execute, fun image bp hlen => ?loader⟩
  case unsupported => exact h.step_of_unsupported (decode_of_vle ((isVle_iff _).mpr hv))
  case illegal =>
    exact h.step_of_illegal
      (decode_of_unassigned (Bool.eq_false_iff.mpr (mt (isVle_iff _).mp hv)) hop)
  case running => exact ⟨_, step_of_pc_out_of_range hm hpc, faultEffect_raise s _⟩
  case continued =>
    exact ⟨_, step_of_cont_out_of_range hm hc hpc, rfl, rfl, rfl, rfl, rfl, rfl⟩
  case execute =>
    obtain ⟨t, ht⟩ := exec_completes i s
    cases hx.symm.trans ht
  case loader => exact ⟨_, load_of_too_long image bp hlen⟩

/-- Settles O27: the command taken is no part of what the statement compares. -/
theorem faultsArePrecise : Obligations.FaultsArePrecise := by
  intro s t c h hc
  obtain ⟨cmds, heff⟩ := step_halted_effect h hc
  exact ⟨heff.mem, heff.out, heff.bp, heff.events⟩

/-- Settles O28: the step of a Halted Machine is its cause. -/
theorem haltedIsFinal : Obligations.HaltedIsFinal := by
  intro s c hm
  have hstep := step_of_halted hm
  exact ⟨hstep, fun t h => by cases hstep.symm.trans h⟩

/-- Settles O31: one equation of the step per command. -/
theorem debuggerCommandsChangeNoCell : Obligations.DebuggerCommandsChangeNoCell :=
  fun _ hm => ⟨step_of_no_cmd hm, fun _ _ => step_of_read hm, fun _ => step_of_exit hm,
    fun _ => step_of_invalid hm⟩

end Sys2Proof.Machine
end

section
/-! Breakpoints as a stutter (60_exceptions.md R247): `ExecuteAt` repeats whatever the host has set or
asked, so a Machine that is always continued keeps up with one without breakpoints, at most two steps
for one: O39. -/

namespace Sys2Proof.Machine

/-! ### Steps 3 to 7 without the host -/

section
variable {s t : State}

/-- Without the host a state is its memory, its mode and its output. -/
theorem State.alone_eq_alone_iff :
    s.alone = t.alone ↔ s.mem = t.mem ∧ s.mode = t.mode ∧ s.out = t.out := by
  simp [State.alone]

theorem exec_alone {i : Instr} (h : exec i s = .next t) : exec i s.alone = .next t.alone := by
  cases i with
  | lp cond src dst =>
    by_cases hc : isPositive (s.reg cond) = true
    · rw [exec_lp_positive s src dst hc] at h
      cases h; exact exec_lp_positive s.alone src dst hc
    · rw [exec_lp_not_positive s src dst hc] at h
      cases h; exact exec_lp_not_positive s.alone src dst hc
  | _ => cases h; rfl

theorem State.strobe_alone (s : State) : s.alone.strobe = s.strobe.alone := by
  rw [State.strobe, State.strobe, apply_ite State.alone]; rfl

theorem State.advancePc_alone (s : State) (a : Word) :
    s.alone.advancePc a = (s.advancePc a).alone := by
  rw [State.advancePc, State.advancePc, apply_ite State.alone]; rfl

theorem State.finish_alone (s : State) (a : Word) : s.alone.finish a = (s.finish a).alone := by
  rw [State.finish, State.strobe_alone, State.advancePc_alone, State.finish]

/-- `ExecuteAt` reads no breakpoint, no command and no event. -/
theorem executeAt_alone {a : Word} (h : executeAt a s = .next t) :
    ∃ t', executeAt a s.alone = .next t' ∧ t'.alone = t.alone := by
  by_cases hr : inRange a = true
  · cases hd : decode (s.fetch a) with
    | unsupported op =>
      cases h.symm.trans (executeAt_of_unsupported hr hd)
      exact ⟨_, executeAt_of_unsupported hr hd, rfl⟩
    | illegal op =>
      cases h.symm.trans (executeAt_of_illegal hr hd)
      exact ⟨_, executeAt_of_illegal hr hd, rfl⟩
    | instr i =>
      obtain ⟨v, hv⟩ := exec_completes i s
      cases h.symm.trans (executeAt_of_instr hr hd hv)
      exact ⟨_, executeAt_of_instr hr hd (exec_alone hv), by rw [State.finish_alone]; rfl⟩
  · cases h.symm.trans (executeAt_of_not_inRange hr)
    exact ⟨_, executeAt_of_not_inRange hr, rfl⟩

theorem executeAt_keeps_cmds {a : Word} (h : executeAt a s = .next t) : t.cmds = s.cmds := by
  obtain ⟨c, rfl⟩ | ⟨i, v, -, -, hx, rfl⟩ := executeAt_cases h
  · rfl
  · rw [State.finish_cmds, (exec_beside hx).cmds]

/-- `ExecuteAt` suspends nothing: the breakpoint test is not part of it (R180). -/
theorem executeAt_not_debugging {a : Word} (hm : s.mode = .running)
    (h : executeAt a s = .next t) : t.mode ≠ .debugging := by
  obtain ⟨c, rfl⟩ | ⟨i, v, -, -, hx, rfl⟩ := executeAt_cases h
  · simp
  · rw [State.finish_mode, (exec_beside hx).mode, hm]; simp

end

/-! ### Runs -/

section
variable {s t v : State} {n : Nat}

theorem runSteps_of_step (h : step s = .next v) : runSteps (n + 1) s = runSteps n v := by
  simp only [runSteps, h]

theorem step_of_runSteps (h : runSteps (n + 1) s = .next t) :
    ∃ v, step s = .next v ∧ runSteps n v = .next t := by
  obtain ⟨c, -, hs⟩ | ⟨v, hs⟩ := step_answers s
  · simp [runSteps, hs] at h
  · exact ⟨v, hs, runSteps_of_step hs ▸ h⟩

theorem runSteps_add {j : Nat} (m : Nat) (h : runSteps j s = .next v) :
    runSteps (j + m) s = runSteps m v := by
  induction j generalizing s with
  | zero => cases h; rw [Nat.zero_add]
  | succ j ih =>
    obtain ⟨w, hw, hrest⟩ := step_of_runSteps h
    rw [Nat.add_right_comm, runSteps_of_step hw, ih hrest]

end

/-! ### The simulation -/

/-- `s` has no breakpoints, `u` has any and at least `n` Continues pending; neither is suspended, and
they differ in nothing but breakpoints, commands and events. -/
structure KeepsUp (n : Nat) (s u : State) : Prop where
  noBreak : s.bp = []
  notSuspended : s.mode ≠ .debugging
  same : u.alone = s.alone
  pending : ∃ k, n ≤ k ∧ u.cmds = List.replicate k .cont

section
variable {n : Nat} {s s' u : State}

theorem KeepsUp.mode (h : KeepsUp n s u) : u.mode = s.mode := by
  obtain ⟨-, hmode, -⟩ := State.alone_eq_alone_iff.mp h.same
  exact hmode

theorem KeepsUp.pc (h : KeepsUp n s u) : u.pc = s.pc := by
  obtain ⟨hmem, -, -⟩ := State.alone_eq_alone_iff.mp h.same
  exact State.read_congr hmem _

/-- With a Continue unused there are as many as without it. -/
theorem KeepsUp.of_succ (h : KeepsUp (n + 1) s u) : KeepsUp n s u := by
  obtain ⟨k, hk, hcmds⟩ := h.pending
  exact ⟨h.noBreak, h.notSuspended, h.same, k, Nat.le_of_succ_le hk, hcmds⟩

/-- A breakpoint and the Continue for it lead back to the point of the fetch (R181, R186). -/
theorem KeepsUp.resumed {k : Nat} (h : KeepsUp (n + 1) s u) (hm : u.mode = .running)
    (hk : n ≤ k) : KeepsUp n s (u.enterDebugging.takeCmd (List.replicate k .cont)).resume where
  noBreak := h.noBreak
  notSuspended := h.notSuspended
  same := by
    rw [← h.same, State.alone_eq_alone_iff]
    exact ⟨rfl, hm.symm, rfl⟩
  pending := ⟨k, hk, rfl⟩

/-- Both make the same steps 3 to 7. -/
theorem KeepsUp.executeAt_next {a : Word} (h : KeepsUp n s u) (hm : s.mode = .running)
    (hbp : s'.bp = s.bp) (hs : executeAt a s = .next s') :
    ∃ u', executeAt a u = .next u' ∧ KeepsUp n s' u' := by
  obtain ⟨u', hu⟩ := executeAt_completes a u
  obtain ⟨t, ht, hts⟩ := executeAt_alone hs
  obtain ⟨t', ht', htu⟩ := executeAt_alone hu
  rw [h.same, ht, Host.Outcome.next.injEq] at ht'
  refine ⟨u', hu, hbp.trans h.noBreak, executeAt_not_debugging hm hs, ?_, ?_⟩
  · rw [← htu, ← ht', hts]
  · rw [executeAt_keeps_cmds hu]; exact h.pending

/-- One step without breakpoints is one step with them, or two at a breakpoint: the suspension and the
Continue (R247). -/
theorem KeepsUp.step_next (h : KeepsUp (n + 1) s u) (hs : step s = .next s') :
    ∃ j u', j ≤ 2 ∧ runSteps j u = .next u' ∧ KeepsUp n s' u' := by
  have hbp := step_keeps_bp hs
  have hm : s.mode = .running := by
    cases hmode : s.mode with
    | running => rfl
    | debugging => exact absurd hmode h.notSuspended
    | halted c => cases hs.symm.trans (step_of_halted hmode)
  have hmu : u.mode = .running := h.mode.trans hm
  rw [step_of_not_mem_bp hm (h.noBreak ▸ List.not_mem_nil), ← h.pc] at hs
  cases hb : u.atBreakpoint with
  | false =>
    obtain ⟨u', hu, hkeeps⟩ := h.of_succ.executeAt_next hm hbp hs
    exact ⟨1, u', by decide, runSteps_of_step ((step_of_not_atBreakpoint hmu hb).trans hu), hkeeps⟩
  | true =>
    obtain ⟨_ | k, hk, hcmds⟩ := h.pending
    · cases hk
    · obtain ⟨u', hu, hkeeps⟩ := (h.resumed hmu (Nat.le_of_succ_le_succ hk)).executeAt_next hm hbp hs
      have hcont : step u.enterDebugging = .next u' := 
        (step_of_cont (s := u.enterDebugging) rfl hcmds).trans hu
      exact ⟨2, u', Nat.le_refl 2,
        (runSteps_of_step (step_of_atBreakpoint hmu hb)).trans (runSteps_of_step hcont), hkeeps⟩

end

/-- The steps add up: at most two with breakpoints for each one without. -/
theorem KeepsUp.runSteps_next {n : Nat} {s t u : State} (h : KeepsUp n s u)
    (hs : runSteps n s = .next t) :
    ∃ m t', m ≤ 2 * n ∧ runSteps m u = .next t' ∧ t'.alone = t.alone := by
  induction n generalizing s u with
  | zero => cases hs; exact ⟨0, u, Nat.le_refl 0, rfl, h.same⟩
  | succ n ih =>
    obtain ⟨s', hstep, hrest⟩ := step_of_runSteps hs
    obtain ⟨j, u', hj, hju, hkeeps⟩ := h.step_next hstep
    obtain ⟨m, t', hm, hmu, hsame⟩ := ih hkeeps hrest
    exact ⟨j + m, t', by omega, (runSteps_add m hju).trans hmu, hsame⟩

/-- Settles O39: the Machine with its breakpoints and `n` Continues pending keeps up with the one
without the host for `n` steps. -/
theorem breakpointsAreAStutter : Obligations.BreakpointsAreAStutter := by
  intro n s t hm hrun
  have hstart : KeepsUp n s.alone { s with cmds := List.replicate n .cont } :=
    ⟨rfl, by simp [State.alone, hm], rfl, n, Nat.le_refl n, rfl⟩
  obtain ⟨m, t', hle, hm', hsame⟩ := hstart.runSteps_next hrun
  obtain ⟨hmem, hmode, hout⟩ := State.alone_eq_alone_iff.mp hsame
  exact ⟨m, t', hle, hm', hmem, hout, hmode⟩

end Sys2Proof.Machine
end

section
/-! Hazards of the PC (70_reset_and_hazards.md R273, R274): a step that executes an instruction ends in
mode Running whatever it leaves in the PC cell, and a never-written cell executes as an ADD: O23 and
O24. -/

namespace Sys2Proof.Machine

variable {s t u : State}

/-! ### The mode after an instruction -/

/-- No instruction's execute part stops, and steps 5 to 7 leave the mode alone (R180, R273). -/
theorem ExecutesFrom.step_mode {i : Instr} (h : ExecutesFrom s u)
    (hd : decode (u.fetch u.pc) = .instr i) (hs : step s = .next t) : t.mode = .running := by
  obtain ⟨v, hx⟩ := exec_completes i u
  cases hs.symm.trans (h.step_of_instr hd hx)
  rw [State.finish_mode, (exec_beside hx).mode, h.mode]

/-! ### The zero word -/

/-- A never-written cell decodes to `ADD 0 0 0` (R274). -/
theorem decode_zero : decode 0x00000000#32 = .instr (.add 0x00#8 0x00#8 0x00#8) :=
  decode_of_opcode (k := .add) rfl

/-- `ADD 0 0 0` writes twice the PC to the PC cell: register 0 is that cell (R22, R130). -/
theorem exec_add_zero (s : State) : exec (.add 0x00#8 0x00#8 0x00#8) s =
    .next (s.write Config.pcAddr (s.pc + s.pc)) := exec_add s _ _ _

/-- Twice an address in range is a word: the sum does not overflow. -/
theorem toNat_add_self_of_inRange {a : Word} (ha : inRange a = true) :
    (a + a).toNat = 2 * a.toNat := by
  rw [inRange_iff] at ha
  rw [Nat.two_mul]
  exact BitVec.toNat_add_of_lt (by omega)

/-- The step of a zero word at a nonzero address leaves the PC at twice that address: it is not the
fetch address, so the PC does not advance (R190). -/
theorem StepEffect.pc_of_add_self (h : StepEffect u t Config.pcAddr (u.pc + u.pc))
    (hpc : u.pc ≠ 0#32) : t.pc = u.pc + u.pc :=
  h.pc.trans (if_pos ⟨rfl, mt BitVec.add_right_eq_self.mp hpc⟩)

/-- At address 0 doubling leaves the PC as it is, so it advances (R190). -/
theorem StepEffect.pc_of_add_self_zero (h : StepEffect u t Config.pcAddr (u.pc + u.pc))
    (hpc : u.pc = 0#32) : t.pc = 1#32 := by
  have hsame : u.pc + u.pc = u.pc := BitVec.add_right_eq_self.mpr hpc
  calc t.pc
      = u.pc + 1#32 := h.pc.trans (if_neg fun ⟨_, hne⟩ => hne hsame)
    _ = 1#32 := by rw [hpc]; rfl

/-! ### The obligations -/

/-- Settles O23: the step ends in mode Running, where a PC above 0xFFFF faults before the fetch. -/
theorem badPcFaultsOneStepLate : Obligations.BadPcFaultsOneStepLate := by
  intro s u t i hs hd hstep hpc
  have hm := hs.step_mode hd hstep
  exact ⟨hm, _, step_of_pc_out_of_range hm hpc, faultEffect_raise t _⟩

/-- Settles O24: one write of twice the PC to the PC cell, which the advance sees as a jump exactly
when the PC is not 0. -/
theorem zeroMemoryDoublesThePc : Obligations.ZeroMemoryDoublesThePc := by
  intro s u hs hzero
  have hd : decode (u.fetch u.pc) = .instr (.add 0x00#8 0x00#8 0x00#8) := by
    rw [hzero, decode_zero]
  obtain ⟨t, hstep, heff⟩ := step_effect_of_write exec_add_zero s u hs hd
  refine ⟨t, hstep, heff, fun hpc => ?doubles, heff.pc_of_add_self_zero⟩
  case doubles => rw [heff.pc_of_add_self hpc, toNat_add_self_of_inRange hs.range]

end Sys2Proof.Machine
end

section
/-! The cautious value of `ADD_OVERFLOW` (92_eei_decisions.md D1, D2): where it makes the result of ADD
or NEG a fault, and that elsewhere the result is the default's: O15. -/

namespace Sys2Proof.Machine

/-! ### The result under the cautious value -/

section
variable {a b : Word}

theorem addResult_fault_of_overflow (h : 0xFFFFFFFF < a.toNat + b.toNat) :
    addResult .fault a b = none :=
  if_neg (show ¬ a.toNat + b.toNat < 2 ^ 32 by omega)

theorem addResult_fault_of_fits (h : a.toNat + b.toNat ≤ 0xFFFFFFFF) :
    addResult .fault a b = addResult Config.addOverflow a b :=
  if_pos (show a.toNat + b.toNat < 2 ^ 32 by omega)

theorem negResult_fault_of_min (h : a = 0x80000000#32) : negResult .fault a = none := if_pos h

theorem negResult_fault_of_ne_min (h : a ≠ 0x80000000#32) :
    negResult .fault a = negResult Config.addOverflow a := if_neg h

end

/-! ### The execute part -/

section
variable {p q : Config.AddOverflow} {s : State}

theorem execAddWith_of_no_result {lhs rhs : Byte} (out : Byte)
    (h : addResult p (s.reg lhs) (s.reg rhs) = none) :
    execAddWith p lhs rhs out s = .fault .arithmeticOverflow :=
  congrArg (writeResult out · s) h

theorem execNegWith_of_no_result {input : Byte} (out pad : Byte)
    (h : negResult p (s.reg input) = none) :
    execNegWith p input out pad s = .fault .arithmeticOverflow :=
  congrArg (writeResult out · s) h

/-- ADD depends on the parameter through its result only. -/
theorem execAddWith_congr {lhs rhs : Byte} (out : Byte)
    (h : addResult p (s.reg lhs) (s.reg rhs) = addResult q (s.reg lhs) (s.reg rhs)) :
    execAddWith p lhs rhs out s = execAddWith q lhs rhs out s :=
  congrArg (writeResult out · s) h

/-- NEG depends on the parameter through its result only. -/
theorem execNegWith_congr {input : Byte} (out pad : Byte)
    (h : negResult p (s.reg input) = negResult q (s.reg input)) :
    execNegWith p input out pad s = execNegWith q input out pad s :=
  congrArg (writeResult out · s) h

end

/-- Settles O15: the two values of the parameter differ exactly where the cautious one gives no
result, and there the execute part raises the fault. -/
theorem cautiousOverflowParameterFaults : Obligations.CautiousOverflowParameterFaults := by
  refine ⟨fun lhs rhs out s => ⟨fun hover => ?addFaults, fun hfits => ?addDefault⟩,
    fun input out pad s => ⟨fun hmin => ?negFaults, fun hne => ?negDefault⟩⟩
  case addFaults => exact execAddWith_of_no_result out (addResult_fault_of_overflow hover)
  case addDefault => exact execAddWith_congr out (addResult_fault_of_fits hfits)
  case negFaults => exact execNegWith_of_no_result out pad (negResult_fault_of_min hmin)
  case negDefault => exact execNegWith_congr out pad (negResult_fault_of_ne_min hne)

end Sys2Proof.Machine
end
